-- ==== Sys2Proof/Word.lean ====
section
/-! DEFINITION. The machine's word types: 32-bit words (00_scope R8, 10_state R16), bytes, and
the 5-bit and 6-bit fields of an instruction word (10_state R22). -/

namespace Sys2Proof

/-- A register value, ALU result, effective address, data word or instruction word (R8, R16, R52). -/
abbrev Word := BitVec 32

/-- One byte of the byte view of data memory (R42). -/
abbrev Byte := BitVec 8

/-- A register index field `rs`, `rt` or `rd`, or the shift amount `shamt` (R22). -/
abbrev Field5 := BitVec 5

/-- An `opcode` or `func` field (R22). -/
abbrev Field6 := BitVec 6

/-- The 16-bit immediate field `imm16` (R52). -/
abbrev Imm16 := BitVec 16

end Sys2Proof
end

