-- ==== Sys2Proof/Config.lean ====
section
/-! DEFINITION. The configuration of 00_scope R7. It is fixed for a launch (10_state R128) and is
carried in State as a launch constant (log 1), so that a statement about every state is a
statement about every configuration. -/

namespace Sys2Proof

/-- `BYTE_ORDER` (20_memory R42): OPEN in the spec, and unobservable inside the block. -/
inductive ByteOrder where
  | little
  | big
  deriving DecidableEq, Repr

/-- `MISALIGNED_POLICY` (20_memory R41). -/
inductive MisalignedPolicy where
  | fault
  | truncate
  | outOfRange
  deriving DecidableEq, Repr

/-- `NEAR_LOAD_FORWARD` (40_pipeline R81). -/
inductive NearLoadForward where
  | fault
  | ea
  | stale
  deriving DecidableEq, Repr

/-- The parameters of 00_scope R7 that are not fixed by a type of the model
(`NREGS`, `XLEN` and `ILEN` are: 32 registers, 32-bit words, one word an instruction). -/
structure Config where
  /-- `R0_HARDWIRED` (R17). -/
  r0Hardwired : Bool
  /-- `DMEM_WORDS`, the data memory's size in words (R35). -/
  dmemWords : Nat
  /-- `DATA_BASE`, the byte address of data word 0 (R37). -/
  dataBase : Word
  /-- `BYTE_ORDER` (R42). -/
  byteOrder : ByteOrder
  /-- `OP_LW` (R58). -/
  opLw : Field6
  /-- `OP_SW` (R58). -/
  opSw : Field6
  /-- `OP_ANDI` (R58). -/
  opAndi : Field6
  /-- `OP_ORI` (R58). -/
  opOri : Field6
  /-- `OP_BNE` (R58). -/
  opBne : Field6
  /-- `FN_ADD` (R58). -/
  fnAdd : Field6
  /-- `FN_SUB` (R58). -/
  fnSub : Field6
  /-- `FN_SLL` (R58, R62). -/
  fnSll : Field6
  /-- `FN_NOOP` (R55). -/
  fnNoop : Field6
  /-- `FN_HALT` (R55). -/
  fnHalt : Field6
  /-- `FORWARD_STORE_DATA` (R78). -/
  forwardStoreData : Bool
  /-- `MISALIGNED_POLICY` (R41). -/
  misalignedPolicy : MisalignedPolicy
  /-- `NEAR_LOAD_FORWARD` (R81). -/
  nearLoadForward : NearLoadForward
  deriving DecidableEq, Repr

/-- The default configuration of R7. DESIGN CHOICE: `dmemWords` 32 (log 3) and `byteOrder` little
(log 4), both OPEN in the spec; no statement rests on either value. -/
def Config.default : Config where
  r0Hardwired := false
  dmemWords := 32
  dataBase := 0
  byteOrder := .little
  opLw := 35
  opSw := 43
  opAndi := 12
  opOri := 13
  opBne := 5
  fnAdd := 32
  fnSub := 34
  fnSll := 0
  fnNoop := 0
  fnHalt := 1
  forwardStoreData := true
  misalignedPolicy := .fault
  nearLoadForward := .fault

/-- The two X-type function codes are 0 and 1, one each (R54, R55; which is which is decision D6). -/
abbrev Config.wf (cfg : Config) : Prop :=
  (cfg.fnNoop = 0 ∧ cfg.fnHalt = 1) ∨ (cfg.fnNoop = 1 ∧ cfg.fnHalt = 0)

end Sys2Proof
end

