-- ==== Sys2Proof/Syntax.lean ====
section
/-! DEFINITION. The instruction set: one constructor for each of the twelve rows of
opcode_table.json, in the table's order, and the decoded record of 10_state R22. -/

namespace Sys2Proof

/-- A decoded instruction. Each constructor keeps the fields its class decodes (30_encoding R55 to
R57, R59); the immediate is kept as its 16-bit field and extended by `Instr.imm` (R57, log 12).
`noop` is also the stall bubble and the synthetic noop (10_state R24). -/
inductive Instr where
  /-- R103 -/
  | noop
  /-- R104 -/
  | halt
  /-- R93 -/
  | add (rs rt rd shamt : Field5)
  /-- R94 -/
  | sub (rs rt rd shamt : Field5)
  /-- R95 -/
  | sll (rs rt rd shamt : Field5)
  /-- R105, the R-type row -/
  | unknownR (rs rt rd shamt : Field5) (func : Field6)
  /-- R97 -/
  | lw (rs rt : Field5) (imm16 : Imm16)
  /-- R98 -/
  | sw (rs rt : Field5) (imm16 : Imm16)
  /-- R99 -/
  | andi (rs rt : Field5) (imm16 : Imm16)
  /-- R100 -/
  | ori (rs rt : Field5) (imm16 : Imm16)
  /-- R101 -/
  | bne (rs rt : Field5) (imm16 : Imm16)
  /-- R105, the I-type row -/
  | unknownI (opcode : Field6) (rs rt : Field5) (imm16 : Imm16)
  deriving DecidableEq, Repr

/-- The closed enumeration of names (R22). -/
inductive Mnemonic where
  | add | sub | sll | lw | sw | andi | ori | bne | noop | halt | unknown
  deriving DecidableEq, Repr

/-- The type tag of a decoded instruction (R22, R54). -/
inductive InstrType where
  | r | i | x
  deriving DecidableEq, Repr

/-- The decoded record, with the fields R22 lists. -/
structure Record where
  name : Mnemonic
  type : InstrType
  rs : Field5
  rt : Field5
  rd : Field5
  shamt : Field5
  imm : Word
  func : Field6
  opcode : Field6
  deriving DecidableEq, Repr

end Sys2Proof
end

