-- ==== Sys2Proof/WellFormed.lean ====
section
/-! DEFINITION. Which instructions a configuration can encode: an instruction is well formed when
its row of 30_encoding R61 is not shadowed by a row of higher priority. -/

namespace Sys2Proof

/-- `func` selects the X type when the opcode is 0 (R54). -/
abbrev isXFunc (fn : Field6) : Prop := fn = 0 ∨ fn = 1

/-- The instruction has a word of its own under `cfg`: the conditions under which the priority
order of R61 reaches its row. `sll` is ill formed under the default codes (R62). -/
def WellFormed (cfg : Config) : Instr → Bool
  | .noop => isXFunc cfg.fnNoop
  | .halt => isXFunc cfg.fnHalt ∧ cfg.fnHalt ≠ cfg.fnNoop
  | .add _ _ _ _ => ¬ isXFunc cfg.fnAdd
  | .sub _ _ _ _ => ¬ isXFunc cfg.fnSub ∧ cfg.fnSub ≠ cfg.fnAdd
  | .sll _ _ _ _ => ¬ isXFunc cfg.fnSll ∧ cfg.fnSll ≠ cfg.fnAdd ∧ cfg.fnSll ≠ cfg.fnSub
  | .unknownR _ _ _ _ fn => ¬ isXFunc fn ∧ fn ≠ cfg.fnAdd ∧ fn ≠ cfg.fnSub ∧ fn ≠ cfg.fnSll
  | .lw _ _ _ => cfg.opLw ≠ 0
  | .sw _ _ _ => cfg.opSw ≠ 0 ∧ cfg.opSw ≠ cfg.opLw
  | .andi _ _ _ => cfg.opAndi ≠ 0 ∧ cfg.opAndi ≠ cfg.opLw ∧ cfg.opAndi ≠ cfg.opSw
  | .ori _ _ _ => cfg.opOri ≠ 0 ∧ cfg.opOri ≠ cfg.opLw ∧ cfg.opOri ≠ cfg.opSw ∧ cfg.opOri ≠ cfg.opAndi
  | .bne _ _ _ => cfg.opBne ≠ 0 ∧ cfg.opBne ≠ cfg.opLw ∧ cfg.opBne ≠ cfg.opSw ∧
      cfg.opBne ≠ cfg.opAndi ∧ cfg.opBne ≠ cfg.opOri
  | .unknownI op _ _ _ => op ≠ 0 ∧ op ≠ cfg.opLw ∧ op ≠ cfg.opSw ∧
      op ≠ cfg.opAndi ∧ op ≠ cfg.opOri ∧ op ≠ cfg.opBne

end Sys2Proof
end

