-- ==== Sys2Proof/Decode.lean ====
section
/-! DEFINITION. The decoder (30_encoding R52 to R61), total over the 32-bit words, the encoder
written from the same tables, and the fields of the decoded record (10_state R22, R23). -/

namespace Sys2Proof

/-- `w[31:26]` (R52). -/
def opcodeOf (w : Word) : Field6 := w.extractLsb' 26 6
/-- `w[25:21]` (R52). -/
def rsOf (w : Word) : Field5 := w.extractLsb' 21 5
/-- `w[20:16]` (R52). -/
def rtOf (w : Word) : Field5 := w.extractLsb' 16 5
/-- `w[15:11]` (R52). -/
def rdOf (w : Word) : Field5 := w.extractLsb' 11 5
/-- `w[10:6]` (R52). -/
def shamtOf (w : Word) : Field5 := w.extractLsb' 6 5
/-- `w[5:0]` (R52). -/
def funcOf (w : Word) : Field6 := w.extractLsb' 0 6
/-- `w[15:0]` (R52). -/
def imm16Of (w : Word) : Imm16 := w.extractLsb' 0 16

/-- `sext_32` (R9). -/
def sext32 (v : Imm16) : Word := v.signExtend 32
/-- `zext_32` (R9). -/
def zext32 (v : Imm16) : Word := v.setWidth 32

/-- The type of a word, from its opcode and func alone (R54). -/
def classify (op fn : Field6) : InstrType :=
  if op = 0 ∧ (fn = 0 ∨ fn = 1) then .x else if op = 0 then .r else .i

/-- X-type words: only `func` counts, bits 25:6 are ignored (R55). A func other than `FN_NOOP` is
`FN_HALT` when `cfg.wf` holds (log 13). -/
def decodeX (cfg : Config) (w : Word) : Instr :=
  if funcOf w = cfg.fnNoop then .noop else .halt

/-- R-type words: the name is resolved from `func` alone (R56, R58, R59). -/
def decodeR (cfg : Config) (w : Word) : Instr :=
  if funcOf w = cfg.fnAdd then .add (rsOf w) (rtOf w) (rdOf w) (shamtOf w)
  else if funcOf w = cfg.fnSub then .sub (rsOf w) (rtOf w) (rdOf w) (shamtOf w)
  else if funcOf w = cfg.fnSll then .sll (rsOf w) (rtOf w) (rdOf w) (shamtOf w)
  else .unknownR (rsOf w) (rtOf w) (rdOf w) (shamtOf w) (funcOf w)

/-- I-type words: the name is resolved from `opcode` (R57, R58, R59). -/
def decodeI (cfg : Config) (w : Word) : Instr :=
  if opcodeOf w = cfg.opLw then .lw (rsOf w) (rtOf w) (imm16Of w)
  else if opcodeOf w = cfg.opSw then .sw (rsOf w) (rtOf w) (imm16Of w)
  else if opcodeOf w = cfg.opAndi then .andi (rsOf w) (rtOf w) (imm16Of w)
  else if opcodeOf w = cfg.opOri then .ori (rsOf w) (rtOf w) (imm16Of w)
  else if opcodeOf w = cfg.opBne then .bne (rsOf w) (rtOf w) (imm16Of w)
  else .unknownI (opcodeOf w) (rsOf w) (rtOf w) (imm16Of w)

/-- The decoder: total and pure, with the unknown sentinel for every word no row names (R59, R60). -/
def decode (cfg : Config) (w : Word) : Instr :=
  match classify (opcodeOf w) (funcOf w) with
  | .x => decodeX cfg w
  | .r => decodeR cfg w
  | .i => decodeI cfg w

/-- The X-type format of R53, its ignored bits 0. -/
def encodeX (fn : Field6) : Word := (0 : Field6) ++ (0 : BitVec 20) ++ fn

/-- The R-type format of R53. -/
def encodeR (rs rt rd shamt : Field5) (fn : Field6) : Word :=
  (0 : Field6) ++ rs ++ rt ++ rd ++ shamt ++ fn

/-- The I-type format of R53. -/
def encodeI (op : Field6) (rs rt : Field5) (imm16 : Imm16) : Word := op ++ rs ++ rt ++ imm16

/-- The word of an instruction (R53, R58). -/
def encode (cfg : Config) : Instr → Word
  | .noop => encodeX cfg.fnNoop
  | .halt => encodeX cfg.fnHalt
  | .add rs rt rd shamt => encodeR rs rt rd shamt cfg.fnAdd
  | .sub rs rt rd shamt => encodeR rs rt rd shamt cfg.fnSub
  | .sll rs rt rd shamt => encodeR rs rt rd shamt cfg.fnSll
  | .unknownR rs rt rd shamt fn => encodeR rs rt rd shamt fn
  | .lw rs rt imm16 => encodeI cfg.opLw rs rt imm16
  | .sw rs rt imm16 => encodeI cfg.opSw rs rt imm16
  | .andi rs rt imm16 => encodeI cfg.opAndi rs rt imm16
  | .ori rs rt imm16 => encodeI cfg.opOri rs rt imm16
  | .bne rs rt imm16 => encodeI cfg.opBne rs rt imm16
  | .unknownI op rs rt imm16 => encodeI op rs rt imm16

/-- The name of a decoded instruction (R22, R58). -/
def Instr.name : Instr → Mnemonic
  | .noop => .noop
  | .halt => .halt
  | .add _ _ _ _ => .add
  | .sub _ _ _ _ => .sub
  | .sll _ _ _ _ => .sll
  | .unknownR _ _ _ _ _ => .unknown
  | .lw _ _ _ => .lw
  | .sw _ _ _ => .sw
  | .andi _ _ _ => .andi
  | .ori _ _ _ => .ori
  | .bne _ _ _ => .bne
  | .unknownI _ _ _ _ => .unknown

/-- The type tag (R22). -/
def Instr.type : Instr → InstrType
  | .noop | .halt => .x
  | .add _ _ _ _ | .sub _ _ _ _ | .sll _ _ _ _ | .unknownR _ _ _ _ _ => .r
  | .lw _ _ _ | .sw _ _ _ | .andi _ _ _ | .ori _ _ _ | .bne _ _ _ | .unknownI _ _ _ _ => .i

/-- The `rs` field, 0 for X-type (R23). -/
def Instr.rs : Instr → Field5
  | .noop | .halt => 0
  | .add rs _ _ _ | .sub rs _ _ _ | .sll rs _ _ _ | .unknownR rs _ _ _ _ => rs
  | .lw rs _ _ | .sw rs _ _ | .andi rs _ _ | .ori rs _ _ | .bne rs _ _ | .unknownI _ rs _ _ => rs

/-- The `rt` field, 0 for X-type (R23). -/
def Instr.rt : Instr → Field5
  | .noop | .halt => 0
  | .add _ rt _ _ | .sub _ rt _ _ | .sll _ rt _ _ | .unknownR _ rt _ _ _ => rt
  | .lw _ rt _ | .sw _ rt _ | .andi _ rt _ | .ori _ rt _ | .bne _ rt _ | .unknownI _ _ rt _ => rt

/-- The `rd` field, 0 for X-type and I-type (R23). -/
def Instr.rd : Instr → Field5
  | .noop | .halt => 0
  | .add _ _ rd _ | .sub _ _ rd _ | .sll _ _ rd _ | .unknownR _ _ rd _ _ => rd
  | .lw _ _ _ | .sw _ _ _ | .andi _ _ _ | .ori _ _ _ | .bne _ _ _ | .unknownI _ _ _ _ => 0

/-- The `shamt` field, 0 for X-type and I-type (R23). -/
def Instr.shamt : Instr → Field5
  | .noop | .halt => 0
  | .add _ _ _ sh | .sub _ _ _ sh | .sll _ _ _ sh | .unknownR _ _ _ sh _ => sh
  | .lw _ _ _ | .sw _ _ _ | .andi _ _ _ | .ori _ _ _ | .bne _ _ _ | .unknownI _ _ _ _ => 0

/-- The extended immediate: sign-extended for lw and sw, zero-extended for the other I-type words,
0 for R-type and X-type (R57, R23). -/
def Instr.imm : Instr → Word
  | .noop | .halt => 0
  | .add _ _ _ _ | .sub _ _ _ _ | .sll _ _ _ _ | .unknownR _ _ _ _ _ => 0
  | .lw _ _ v | .sw _ _ v => sext32 v
  | .andi _ _ v | .ori _ _ v | .bne _ _ v | .unknownI _ _ _ v => zext32 v

/-- The `func` field, 0 for I-type (R23); the named rows have their configured code (R58). -/
def Instr.func (cfg : Config) : Instr → Field6
  | .noop => cfg.fnNoop
  | .halt => cfg.fnHalt
  | .add _ _ _ _ => cfg.fnAdd
  | .sub _ _ _ _ => cfg.fnSub
  | .sll _ _ _ _ => cfg.fnSll
  | .unknownR _ _ _ _ fn => fn
  | .lw _ _ _ | .sw _ _ _ | .andi _ _ _ | .ori _ _ _ | .bne _ _ _ | .unknownI _ _ _ _ => 0

/-- The raw opcode, 0 for R-type and X-type (R55, R56); the named rows have their configured code. -/
def Instr.opcode (cfg : Config) : Instr → Field6
  | .noop | .halt => 0
  | .add _ _ _ _ | .sub _ _ _ _ | .sll _ _ _ _ | .unknownR _ _ _ _ _ => 0
  | .lw _ _ _ => cfg.opLw
  | .sw _ _ _ => cfg.opSw
  | .andi _ _ _ => cfg.opAndi
  | .ori _ _ _ => cfg.opOri
  | .bne _ _ _ => cfg.opBne
  | .unknownI op _ _ _ => op

/-- The decoded record of R22. -/
def Instr.record (cfg : Config) (i : Instr) : Record where
  name := i.name
  type := i.type
  rs := i.rs
  rt := i.rt
  rd := i.rd
  shamt := i.shamt
  imm := i.imm
  func := i.func cfg
  opcode := i.opcode cfg

/-- What the decoder reads, under the default configuration, from a word numbered as
opcode_table.json numbers it; an instruction is one 32-bit word (R52), so nothing longer decodes. -/
def decodeTableWord (nbits w : Nat) : Option Instr :=
  if nbits ≤ 32 then some (decode Config.default (BitVec.ofNat 32 w)) else none

end Sys2Proof
end

