-- ==== Sys2Proof/Machine/State.lean ====
section
/-! DEFINITION. The state of the machine (10_state R15 to R36) as plain data, the reasons a cycle
can fault or a launch be refused, and the state after reset (R36, R120). -/

namespace Sys2Proof.Machine

/-- The ModelFault reasons of 60_exceptions R108. The hardware raises nothing (R106); a fault is
safe, since the model stops where the hardware goes on. -/
inductive Fault where
  /-- Raised by the memory stage of lw and sw: an in-range address that is not a multiple of 4,
  under `MISALIGNED_POLICY = fault` (R41). Safe. -/
  | misalignedData
  /-- Raised by the execute stage: a used operand near-forwarded from a lw in EM, under
  `NEAR_LOAD_FORWARD = fault` (R81). Safe. -/
  | unresolvedLoadUse
  deriving DecidableEq, Repr

/-- What is refused. -/
inductive Refusal where
  /-- An instruction that has no meaning yet; no arm of exec raises it. Safe. -/
  | notModelled (mnemonic : String)
  /-- A launch that fails the precondition of 70_reset_and_hazards R122: it has no run. Raised by
  `launch` only. Safe. -/
  | launchNotAdmitted
  deriving DecidableEq, Repr

/-- The run state (R30): the hardware's two values and the model's `Faulted(reason)`. -/
inductive Run where
  | running
  | halted
  | faulted (reason : Fault)
  deriving DecidableEq, Repr

/-- A forward select (R33). It lives inside one cycle only and is no field of State (R82, C6). -/
inductive Forward where
  | none
  | near
  | far
  deriving DecidableEq, Repr

/-- The register file x[0] .. x[31] (R16). -/
abbrev Regs := Vector Word 32

/-- Data memory as a sparse list of cells: (byte offset from `DATA_BASE`, byte), offsets strictly
rising, no byte 0 listed; an unlisted byte reads 0 (R36; log 4, log 5). -/
abbrev Memory := List Host.Cell

/-- The FD latch (R25). -/
structure FDLatch where
  instr : Instr
  deriving DecidableEq, Repr

/-- The DE latch (R26). -/
structure DELatch where
  instr : Instr
  readA : Word
  readB : Word
  deriving DecidableEq, Repr

/-- The EM latch (R27). -/
structure EMLatch where
  instr : Instr
  alu : Word
  wdata : Word
  deriving DecidableEq, Repr

/-- The MW latch (R28). -/
structure MWLatch where
  instr : Instr
  alu : Word
  mdata : Word
  deriving DecidableEq, Repr

/-- The NOOP latch of each stage: NOOP with every derived field 0 (R29). -/
def FDLatch.noop : FDLatch := ⟨.noop⟩
/-- See `FDLatch.noop`. -/
def DELatch.noop : DELatch := ⟨.noop, 0, 0⟩
/-- See `FDLatch.noop`. -/
def EMLatch.noop : EMLatch := ⟨.noop, 0, 0⟩
/-- See `FDLatch.noop`. -/
def MWLatch.noop : MWLatch := ⟨.noop, 0, 0⟩

/-- The whole state (R15). `program` and `cfg` are the launch constants (R34, R7): no step writes
them (log 1). -/
structure State where
  regs : Regs
  dmem : Memory
  pc : Word
  fd : FDLatch
  de : DELatch
  em : EMLatch
  mw : MWLatch
  run : Run
  cycles : Nat
  stalls : Nat
  program : List Word
  cfg : Config
  deriving DecidableEq, Repr

/-- The reset values of R36 and R120, for a configuration, a program and the initial contents of
data memory. -/
def State.afterReset (cfg : Config) (program : List Word) (dmem : Memory) : State where
  regs := Vector.replicate 32 0
  dmem := dmem
  pc := 0
  fd := .noop
  de := .noop
  em := .noop
  mw := .noop
  run := .running
  cycles := 0
  stalls := 0
  program := program
  cfg := cfg

/-- The machine right after reset, under the default configuration, with no program and no data
loaded: a launch supplies those (`launch`; log 2). -/
def State.reset : State := State.afterReset Config.default [] []

end Sys2Proof.Machine
end

