-- ==== Sys2Proof/Machine/Ops.lean ====
section
/-! DEFINITION. The named operations over data memory and registers: the byte and word views of
memory, `MemRead` and `MemWrite` with their policies (20_memory R38 to R41), register reads and
writes (10_state R17), the write-back register (40_pipeline R73), and entering `Faulted` (R88). -/

namespace Sys2Proof.Machine

/-- The canonical form: offsets strictly rising, no listed byte equal to the unlisted value 0. -/
abbrev Memory.wf (m : Memory) : Prop := m.Pairwise (fun c d => c.1 < d.1) ∧ ∀ c ∈ m, c.2 ≠ 0#8

/-- Every listed cell lies in the data memory's extent `4 * DMEM_WORDS` (R35). -/
abbrev Memory.inExtent (words : Nat) (m : Memory) : Prop := ∀ c ∈ m, c.1 < 4 * words

/-- The byte at an offset; an unlisted byte is 0 (R36). -/
def Memory.readByte : Memory → Nat → Byte
  | [], _ => 0#8
  | c :: rest, a => if c.1 = a then c.2 else readByte rest a

/-- Write one byte, keeping the canonical form. -/
def Memory.writeByte : Memory → Nat → Byte → Memory
  | [], a, b => if b = 0#8 then [] else [(a, b)]
  | c :: rest, a, b =>
    if a < c.1 then (if b = 0#8 then c :: rest else (a, b) :: c :: rest)
    else if a = c.1 then (if b = 0#8 then rest else (a, b) :: rest)
    else c :: writeByte rest a b

/-- Where the byte of significance `k` stands in its word (R42). -/
def lane (order : ByteOrder) (k : Nat) : Nat :=
  match order with
  | .little => k
  | .big => 3 - k

/-- The byte of significance `k` of a word. -/
def byteOf (v : Word) (k : Nat) : Byte := v.extractLsb' (8 * k) 8

/-- The 32-bit word whose four bytes stand at `off .. off + 3`. -/
def Memory.readWord (order : ByteOrder) (m : Memory) (off : Nat) : Word :=
  readByte m (off + lane order 3) ++ readByte m (off + lane order 2) ++
    readByte m (off + lane order 1) ++ readByte m (off + lane order 0)

/-- Write the four bytes of a word at `off .. off + 3`. -/
def Memory.writeWord (order : ByteOrder) (m : Memory) (off : Nat) (v : Word) : Memory :=
  writeByte (writeByte (writeByte (writeByte m
    (off + lane order 0) (byteOf v 0)) (off + lane order 1) (byteOf v 1))
    (off + lane order 2) (byteOf v 2)) (off + lane order 3) (byteOf v 3)

/-- `off = (EA - DATA_BASE) mod 2^32`, as unsigned (R38). -/
def dataOffset (cfg : Config) (ea : Word) : Nat := (ea - cfg.dataBase).toNat

/-- `EA` is in range (R38). -/
abbrev inRange (cfg : Config) (ea : Word) : Prop := dataOffset cfg ea < 4 * cfg.dmemWords

/-- `EA` is aligned (R38). -/
abbrev aligned (cfg : Config) (ea : Word) : Prop := dataOffset cfg ea % 4 = 0

/-- Which data word an access reaches: none when it reads 0 or is dropped, or a ModelFault
(R39 to R41). The range test comes before the alignment test (R38). -/
def dataWordAt (cfg : Config) (ea : Word) : Except Fault (Option Nat) :=
  let off := dataOffset cfg ea
  if ¬ inRange cfg ea then .ok none
  else if aligned cfg ea then .ok (some off)
  else match cfg.misalignedPolicy with
    | .fault => .error .misalignedData
    | .truncate => .ok (some (4 * (off / 4)))
    | .outOfRange => .ok none

/-- `MemRead(EA, 4)` (R39, R41). -/
def memRead (cfg : Config) (m : Memory) (ea : Word) : Except Fault Word :=
  match dataWordAt cfg ea with
  | .error r => .error r
  | .ok none => .ok 0
  | .ok (some off) => .ok (Memory.readWord cfg.byteOrder m off)

/-- `MemWrite(EA, 4, v)` (R40, R41). -/
def memWrite (cfg : Config) (m : Memory) (ea : Word) (v : Word) : Except Fault Memory :=
  match dataWordAt cfg ea with
  | .error r => .error r
  | .ok none => .ok m
  | .ok (some off) => .ok (Memory.writeWord cfg.byteOrder m off v)

/-- Read `x[r]`; register 0 reads 0 when it is hard-wired (R17, R77). -/
def readReg (cfg : Config) (x : Regs) (r : Field5) : Word :=
  if cfg.r0Hardwired = true ∧ r = 0 then 0 else x[r.toNat]

/-- Write `x[r]`; a write to register 0 is dropped when it is hard-wired (R17). -/
def writeReg (cfg : Config) (x : Regs) (r : Field5) (v : Word) : Regs :=
  if cfg.r0Hardwired = true ∧ r = 0 then x else x.set r.toNat v

/-- The register field an instruction's name makes its destination (the table of R73). -/
def destField : Instr → Option Field5
  | .noop => none
  | .halt => none
  | .add _ _ rd _ => some rd
  | .sub _ _ rd _ => some rd
  | .sll _ _ rd _ => some rd
  | .unknownR _ _ _ _ _ => none
  | .lw _ rt _ => some rt
  | .sw _ _ _ => none
  | .andi _ rt _ => some rt
  | .ori _ rt _ => some rt
  | .bne _ _ _ => none
  | .unknownI _ _ _ _ => none

/-- `wreg(i)`, with `none` for NONE (R73). -/
def wreg (cfg : Config) (i : Instr) : Option Field5 :=
  match destField i with
  | none => none
  | some r => if cfg.r0Hardwired = true ∧ r = 0 then none else some r

/-- `commitValue(MW)` (R28). -/
def commitValue (mw : MWLatch) : Word := if mw.instr.name = .lw then mw.mdata else mw.alu

/-- `writeback(x, M)` (R70). -/
def writeback (cfg : Config) (x : Regs) (mw : MWLatch) : Regs :=
  match wreg cfg mw.instr with
  | none => x
  | some r => writeReg cfg x r (commitValue mw)

/-- The state a ModelFault leaves: the cycle commits nothing but the count (R88). -/
def enterFaulted (reason : Fault) (s : State) : State :=
  { s with run := .faulted reason, cycles := s.cycles + 1 }

end Sys2Proof.Machine
end

