-- ==== Sys2Proof/Machine/Flags.lean ====
section
/-! DEFINITION. The block has no status flags (10_state R21). The only flags the document has are
the forward selects of the two operand channels (R33): which channels an instruction uses, and the
select of each (40_pipeline R78, R79, R81). -/

namespace Sys2Proof.Machine

/-- The instruction uses channel A, `rs` (R78). -/
def usesA : Instr → Bool
  | .noop => false
  | .halt => false
  | .add _ _ _ _ => true
  | .sub _ _ _ _ => true
  | .sll _ _ _ _ => false
  | .unknownR _ _ _ _ _ => false
  | .lw _ _ _ => true
  | .sw _ _ _ => true
  | .andi _ _ _ => true
  | .ori _ _ _ => true
  | .bne _ _ _ => false
  | .unknownI _ _ _ _ => false

/-- The instruction uses channel B, `rt` (R78). -/
def usesB (cfg : Config) : Instr → Bool
  | .noop => false
  | .halt => false
  | .add _ _ _ _ => true
  | .sub _ _ _ _ => true
  | .sll _ _ _ _ => true
  | .unknownR _ _ _ _ _ => false
  | .lw _ _ _ => false
  | .sw _ _ _ => cfg.forwardStoreData
  | .andi _ _ _ => false
  | .ori _ _ _ => false
  | .bne _ _ _ => false
  | .unknownI _ _ _ _ => false

/-- The MW half of the select (R79). -/
def farSelect (cfg : Config) (src : Field5) (mw : MWLatch) : Forward :=
  if wreg cfg mw.instr = some src then .far else .none

/-- `select(src, E, M)`: near takes precedence over far (R79). -/
def fwdSelect (cfg : Config) (src : Field5) (em : EMLatch) (mw : MWLatch) : Forward :=
  if wreg cfg em.instr = some src then .near else farSelect cfg src mw

/-- The select of a channel once `NEAR_LOAD_FORWARD` has settled a near match with a lw (R81). -/
def resolvedSelect (cfg : Config) (used : Bool) (src : Field5) (em : EMLatch) (mw : MWLatch) :
    Except Fault Forward :=
  match fwdSelect cfg src em mw with
  | .near =>
    if used = true ∧ em.instr.name = .lw then
      match cfg.nearLoadForward with
      | .fault => .error .unresolvedLoadUse
      | .ea => .ok .near
      | .stale => .ok (farSelect cfg src mw)
    else .ok .near
  | .far => .ok .far
  | .none => .ok .none

end Sys2Proof.Machine
end

