-- ==== Sys2Proof/Machine/Operands.lean ====
section
/-! DEFINITION. The operand forms: the register reads of the decode stage (40_pipeline R77), the two
operand channels after forwarding (R80, R81), and the store data of sw (R80, R83). -/

namespace Sys2Proof.Machine

/-- `decodeStage(I, x1)`: both reads happen for every record (R77). -/
def decodeStage (cfg : Config) (i : Instr) (x1 : Regs) : DELatch where
  instr := i
  readA := readReg cfg x1 i.rs
  readB := readReg cfg x1 i.rt

/-- The value a select gives (R80). -/
def forwarded (sel : Forward) (em : EMLatch) (mw : MWLatch) (read : Word) : Word :=
  match sel with
  | .near => em.alu
  | .far => commitValue mw
  | .none => read

/-- `opA` (R80, R81). -/
def operandA (cfg : Config) (de : DELatch) (em : EMLatch) (mw : MWLatch) : Except Fault Word :=
  match resolvedSelect cfg (usesA de.instr) de.instr.rs em mw with
  | .error r => .error r
  | .ok sel => .ok (forwarded sel em mw de.readA)

/-- `opB` (R80, R81). -/
def operandB (cfg : Config) (de : DELatch) (em : EMLatch) (mw : MWLatch) : Except Fault Word :=
  match resolvedSelect cfg (usesB cfg de.instr) de.instr.rt em mw with
  | .error r => .error r
  | .ok sel => .ok (forwarded sel em mw de.readB)

/-- The "write data" slot: the store data of sw, `opB` or, without `FORWARD_STORE_DATA`, the value
read at decode; 0 for every other instruction (R27, R80, R83). -/
def storeData (cfg : Config) (de : DELatch) (opB : Word) : Word :=
  if de.instr.name = .sw then (if cfg.forwardStoreData = true then opB else de.readB) else 0

end Sys2Proof.Machine
end

