-- ==== Sys2Proof/Machine/Alu.lean ====
section
/-! DEFINITION. The execute-stage result of each instruction, `alu_<name>(I, opA, opB)`
(40_pipeline R83; 41_register_alu to 45_special). -/

namespace Sys2Proof.Machine

/-- R93 -/
def aluAdd (opA opB : Word) : Word := opA + opB
/-- R94 -/
def aluSub (opA opB : Word) : Word := opA - opB
/-- R95 -/
def aluSll (shamt : Field5) (opB : Word) : Word := opB <<< shamt.toNat
/-- R96, R97: the effective address -/
def aluLw (imm16 : Imm16) (opA : Word) : Word := opA + sext32 imm16
/-- R96, R98: the effective address -/
def aluSw (imm16 : Imm16) (opA : Word) : Word := opA + sext32 imm16
/-- R99 -/
def aluAndi (imm16 : Imm16) (opA : Word) : Word := opA &&& zext32 imm16
/-- R100 -/
def aluOri (imm16 : Imm16) (opA : Word) : Word := opA ||| zext32 imm16
/-- R101 -/
def aluBne : Word := 0
/-- R103 -/
def aluNoop : Word := 0
/-- R104 -/
def aluHalt : Word := 0
/-- R105, the R-type row -/
def aluUnknownR : Word := 0
/-- R105, the I-type row -/
def aluUnknownI : Word := 0

/-- `alu_<I.name>(I, opA, opB)` (R83). -/
def aluResult (i : Instr) (opA opB : Word) : Word :=
  match i with
  | .noop => aluNoop
  | .halt => aluHalt
  | .add _ _ _ _ => aluAdd opA opB
  | .sub _ _ _ _ => aluSub opA opB
  | .sll _ _ _ shamt => aluSll shamt opB
  | .unknownR _ _ _ _ _ => aluUnknownR
  | .lw _ _ imm16 => aluLw imm16 opA
  | .sw _ _ imm16 => aluSw imm16 opA
  | .andi _ _ imm16 => aluAndi imm16 opA
  | .ori _ _ imm16 => aluOri imm16 opA
  | .bne _ _ _ => aluBne
  | .unknownI _ _ _ _ => aluUnknownI

end Sys2Proof.Machine
end

