-- ==== Sys2Proof/Machine/Cycle.lean ====
section
/-! DEFINITION. The clock cycle (40_pipeline R69): injection, the hazard unit, the execute and memory
stages, and the commit, over the stage functions of Ops, Flags, Operands and Alu. -/

namespace Sys2Proof.Machine

/-- The instruction to inject: the program word at `pc / 4`, NOOP once the program is exhausted
(R72). DEDUCED, log 9: for a program of 2^30 - 2 to 2^30 words, `pc` wraps before halt reaches MW and
the words at the program's start are injected behind it, against R20's "unreachable before halt". -/
def inject (s : State) : Instr :=
  match s.program[s.pc.toNat / 4]? with
  | some w => decode s.cfg w
  | none => .noop

/-- `hazard(F, L)`, on the raw fields of F (R74). -/
def hazard (cfg : Config) (f l : Instr) : Bool :=
  if l.name ≠ .lw then false
  else if cfg.r0Hardwired = true ∧ l.rt = 0 then false
  else (f.rs = l.rt ∨ f.rt = l.rt) ∧ wreg cfg f ≠ some l.rt

/-- The hazard unit stalls this cycle (R74, on the current FD and DE). -/
def stalled (s : State) : Bool := hazard s.cfg s.fd.instr s.de.instr

/-- `execute(D, fwdA, fwdB, E, M)` (R83). -/
def execute (cfg : Config) (de : DELatch) (em : EMLatch) (mw : MWLatch) : Except Fault EMLatch :=
  match operandA cfg de em mw, operandB cfg de em mw with
  | .error r, _ => .error r
  | .ok _, .error r => .error r
  | .ok opA, .ok opB =>
    .ok { instr := de.instr, alu := aluResult de.instr opA opB, wdata := storeData cfg de opB }

/-- `memoryStage(E, dmem)` (R84). -/
def memoryStage (cfg : Config) (em : EMLatch) (dmem : Memory) : Except Fault (MWLatch × Memory) :=
  if em.instr.name = .lw then
    match memRead cfg dmem em.alu with
    | .error r => .error r
    | .ok v => .ok ({ instr := em.instr, alu := em.alu, mdata := v }, dmem)
  else if em.instr.name = .sw then
    match memWrite cfg dmem em.alu em.wdata with
    | .error r => .error r
    | .ok dmem1 => .ok ({ instr := em.instr, alu := em.alu, mdata := 0 }, dmem1)
  else .ok ({ instr := em.instr, alu := em.alu, mdata := 0 }, dmem)

/-- Steps (1), (3) and (6) of R69, given the results of the execute and memory stages: write-back
before the decode read (R71), stall or advance (R75, R76), the atomic commit (R85) and halt
detection (R86). -/
def commit (inj : Instr) (s : State) (em1 : EMLatch) (mw1 : MWLatch) (dmem1 : Memory) : State :=
  let x1 := writeback s.cfg s.regs s.mw
  { s with
    regs := x1
    dmem := dmem1
    pc := if stalled s then s.pc else s.pc + 4
    fd := if stalled s then s.fd else ⟨inj⟩
    de := if stalled s then .noop else decodeStage s.cfg s.fd.instr x1
    em := em1
    mw := mw1
    run := if mw1.instr.name = .halt then .halted else s.run
    cycles := s.cycles + 1
    stalls := s.stalls + (if stalled s then 1 else 0) }

/-- One cycle in which `inj` is the instruction to inject (R69). A ModelFault commits nothing, and
the memory stage's reason, the older instruction's, is the one recorded (R88, R110). -/
def cycle (inj : Instr) (s : State) : State :=
  match memoryStage s.cfg s.em s.dmem, execute s.cfg s.de s.em s.mw with
  | .error r, _ => enterFaulted r s
  | .ok _, .error r => enterFaulted r s
  | .ok (mw1, dmem1), .ok em1 => commit inj s em1 mw1 dmem1

/-- A clock event while `run = Halted`: no cycle runs and all state is kept (R67, R87, R119;
DEDUCED, log 6). -/
def haltedStep (s : State) : Host.Outcome State Fault Refusal := .next s

/-- A clock event while `run = Faulted(reason)`: it has no cycle and is never a successful end
(R88, R108; DEDUCED, log 7). -/
def faultedStep (reason : Fault) : Host.Outcome State Fault Refusal := .fault reason

end Sys2Proof.Machine
end

