-- ==== Sys2Proof/Machine/Branch.lean ====
section
/-! DEFINITION. Control transfer: bne, which never transfers control (44_branch R101, R102).
The meaning of an instruction at a state is the clock cycle in which it is the instruction injected
(40_pipeline R69, R72; log 8). What it does in its later cycles stands in the stage functions:
its result in Alu (R83), its operands in Operands and Flags (R78 to R81), its memory access in
`memoryStage` (R84), its register in `wreg` and `writeback` (R70, R73). -/

namespace Sys2Proof.Machine

/-- `bne rs, rt, imm` (R101). -/
def execBne (rs rt : Field5) (imm16 : Imm16) (s : State) : Host.Outcome State Fault Refusal :=
  .next (cycle (.bne rs rt imm16) s)

end Sys2Proof.Machine
end

