-- ==== Sys2Proof/Machine/ImmediateLogic.lean ====
section
/-! DEFINITION. Immediate logical instructions: andi, ori (43_immediate_logic R99, R100).
The meaning of an instruction at a state is the clock cycle in which it is the instruction injected
(40_pipeline R69, R72; log 8). What it does in its later cycles stands in the stage functions:
its result in Alu (R83), its operands in Operands and Flags (R78 to R81), its memory access in
`memoryStage` (R84), its register in `wreg` and `writeback` (R70, R73). -/

namespace Sys2Proof.Machine

/-- `andi rt, rs, imm` (R99). -/
def execAndi (rs rt : Field5) (imm16 : Imm16) (s : State) : Host.Outcome State Fault Refusal :=
  .next (cycle (.andi rs rt imm16) s)

/-- `ori rt, rs, imm` (R100). -/
def execOri (rs rt : Field5) (imm16 : Imm16) (s : State) : Host.Outcome State Fault Refusal :=
  .next (cycle (.ori rs rt imm16) s)

end Sys2Proof.Machine
end

