-- ==== Sys2Proof/Machine/LoadStore.lean ====
section
/-! DEFINITION. Loads and stores: lw, sw (42_load_store R96 to R98).
The meaning of an instruction at a state is the clock cycle in which it is the instruction injected
(40_pipeline R69, R72; log 8). What it does in its later cycles stands in the stage functions:
its result in Alu (R83), its operands in Operands and Flags (R78 to R81), its memory access in
`memoryStage` (R84), its register in `wreg` and `writeback` (R70, R73). -/

namespace Sys2Proof.Machine

/-- `lw rt, imm(rs)` (R97). -/
def execLw (rs rt : Field5) (imm16 : Imm16) (s : State) : Host.Outcome State Fault Refusal :=
  .next (cycle (.lw rs rt imm16) s)

/-- `sw rt, imm(rs)` (R98). -/
def execSw (rs rt : Field5) (imm16 : Imm16) (s : State) : Host.Outcome State Fault Refusal :=
  .next (cycle (.sw rs rt imm16) s)

end Sys2Proof.Machine
end

