-- ==== Sys2Proof/Machine/RegisterAlu.lean ====
section
/-! DEFINITION. Register ALU instructions: add, sub, sll (41_register_alu R92 to R95).
The meaning of an instruction at a state is the clock cycle in which it is the instruction injected
(40_pipeline R69, R72; log 8). What it does in its later cycles stands in the stage functions:
its result in Alu (R83), its operands in Operands and Flags (R78 to R81), its memory access in
`memoryStage` (R84), its register in `wreg` and `writeback` (R70, R73). -/

namespace Sys2Proof.Machine

/-- `add rd, rs, rt` (R93). -/
def execAdd (rs rt rd shamt : Field5) (s : State) : Host.Outcome State Fault Refusal :=
  .next (cycle (.add rs rt rd shamt) s)

/-- `sub rd, rs, rt` (R94). -/
def execSub (rs rt rd shamt : Field5) (s : State) : Host.Outcome State Fault Refusal :=
  .next (cycle (.sub rs rt rd shamt) s)

/-- `sll rd, rt, shamt` (R95). -/
def execSll (rs rt rd shamt : Field5) (s : State) : Host.Outcome State Fault Refusal :=
  .next (cycle (.sll rs rt rd shamt) s)

end Sys2Proof.Machine
end

