-- ==== Sys2Proof/Machine/Special.lean ====
section
/-! DEFINITION. noop, halt and the unknown sentinel (45_special R103 to R105).
The meaning of an instruction at a state is the clock cycle in which it is the instruction injected
(40_pipeline R69, R72; log 8). What it does in its later cycles stands in the stage functions:
its result in Alu (R83), its operands in Operands and Flags (R78 to R81), its memory access in
`memoryStage` (R84), its register in `wreg` and `writeback` (R70, R73). -/

namespace Sys2Proof.Machine

/-- `noop` (R103). -/
def execNoop (s : State) : Host.Outcome State Fault Refusal :=
  .next (cycle .noop s)

/-- `halt` (R104). -/
def execHalt (s : State) : Host.Outcome State Fault Refusal :=
  .next (cycle .halt s)

/-- `unknown, R-type row` (R105). -/
def execUnknownR (rs rt rd shamt : Field5) (func : Field6) (s : State) : Host.Outcome State Fault Refusal :=
  .next (cycle (.unknownR rs rt rd shamt func) s)

/-- `unknown, I-type row` (R105). -/
def execUnknownI (opcode : Field6) (rs rt : Field5) (imm16 : Imm16) (s : State) : Host.Outcome State Fault Refusal :=
  .next (cycle (.unknownI opcode rs rt imm16) s)

end Sys2Proof.Machine
end

