-- ==== Sys2Proof/Machine/Launch.lean ====
section
/-! DEFINITION. Reset and launch: how a program and its data come into the machine
(40_pipeline R67, 70_reset_and_hazards R120 to R122; log 2). -/

namespace Sys2Proof.Machine

/-- The initial data words, in ascending address order from word `k` of data memory (R36, R44). -/
def placeData (order : ByteOrder) : Nat → List Word → Memory → Memory
  | _, [], m => m
  | k, v :: rest, m => placeData order (k + 1) rest (Memory.writeWord order m (4 * k) v)

/-- The state reset loads from `PROGRAM` and `DATA_INIT` (R36, R67, R120). -/
def State.loaded (cfg : Config) (program data : List Word) : State :=
  State.afterReset cfg program (placeData cfg.byteOrder 0 data [])

/-- The launch precondition of R122; that every word is a 32-bit pattern is its type. -/
def admitted (cfg : Config) (program data : List Word) : Bool :=
  match program.getLast? with
  | none => false
  | some w =>
    decide (decode cfg w = .halt) && program.dropLast.all (fun v => decide (decode cfg v ≠ .halt)) &&
      decide (program.length ≤ 2 ^ 30) && decide (data.length ≤ cfg.dmemWords)

/-- A launch: the loaded state, or refused when the precondition fails (R121, R122). -/
def launch (cfg : Config) (program data : List Word) : Host.Outcome State Fault Refusal :=
  if admitted cfg program data then .next (State.loaded cfg program data)
  else .refused .launchNotAdmitted

/-- Put a word at index `k` of a program, zero words before it where the program is shorter. -/
def placeWord : List Word → Nat → Word → List Word
  | [], 0, w => [w]
  | [], k + 1, w => 0 :: placeWord [] k w
  | _ :: rest, 0, w => w :: rest
  | v :: rest, k + 1, w => v :: placeWord rest k w

end Sys2Proof.Machine
end

