-- ==== Sys2Proof/Machine/Step.lean ====
section
/-! DEFINITION. One clock event (40_pipeline R67): while the machine is Running, one cycle of R69
with the instruction at the program counter injected; otherwise no cycle. -/

namespace Sys2Proof.Machine

/-- One clock event (R67, R69, R87, R88). -/
def step (s : State) : Host.Outcome State Fault Refusal :=
  match s.run with
  | .running => exec (inject s) s
  | .halted => haltedStep s
  | .faulted reason => faultedStep reason

/-- `s`, Running, with the instruction word `w` in the program at `pc / 4`, where the next cycle
fetches (log 18). An instruction is one 32-bit word whatever `nbits` is (R52). -/
def State.withFetchWord (s : State) (_nbits w : Nat) : State :=
  { s with
    program := placeWord s.program (s.pc.toNat / 4) (BitVec.ofNat 32 w)
    run := .running }

end Sys2Proof.Machine
end

