-- ==== Sys2Proof/Machine/Signals.lean ====
section
/-! DEFINITION. The abstract interface of the block (40_pipeline R67): the value of every signal at
a state. The observation of 70_reset_and_hazards R127 is the whole state itself. -/

namespace Sys2Proof.Machine

/-- The signals of R67, but for the inputs `reset` (`launch`) and `clk` (`step`). -/
structure Signals where
  imemIndex : BitVec 30
  imemValid : Bool
  /-- `PROGRAM[imem_index]`, when `imem_valid`. -/
  imemWord : Option Word
  /-- `EM.alu` when EM holds lw or sw. -/
  dmemAddr : Option Word
  dmemRe : Bool
  dmemWe : Bool
  dmemWdata : Word
  /-- The word `MemRead` returns, when `dmem_re` and the read raises no ModelFault. -/
  dmemRdata : Option Word
  halted : Bool
  cycles : Nat
  stalls : Nat
  deriving DecidableEq, Repr

/-- The signals at a state (R67). -/
def signals (s : State) : Signals where
  imemIndex := s.pc.extractLsb' 2 30
  imemValid := s.pc.toNat / 4 < s.program.length
  imemWord := s.program[s.pc.toNat / 4]?
  dmemAddr := if s.em.instr.name = .lw ∨ s.em.instr.name = .sw then some s.em.alu else none
  dmemRe := s.em.instr.name = .lw
  dmemWe := s.em.instr.name = .sw
  dmemWdata := s.em.wdata
  dmemRdata :=
    if s.em.instr.name = .lw then
      match memRead s.cfg s.dmem s.em.alu with
      | .ok v => some v
      | .error _ => none
    else none
  halted := s.run = .halted
  cycles := s.cycles
  stalls := s.stalls

end Sys2Proof.Machine
end

