-- ==== Sys2Proof/Safety.lean ====
section
/-! DEFINITION. The terms in which claims are made: when a cycle raises a ModelFault
(60_exceptions R108), when an instruction travels the pipeline alone, the invariant of the machine,
and the sequential execution that the pipeline is compared with. -/

namespace Sys2Proof.Safety

open Sys2Proof.Machine

/-- The memory stage of the next cycle raises `MisalignedData`: lw or sw in EM, an address in range
and not aligned, `MISALIGNED_POLICY = fault` (R41, R108). -/
abbrev MisalignedNow (s : State) : Prop :=
  (s.em.instr.name = .lw ∨ s.em.instr.name = .sw) ∧ inRange s.cfg s.em.alu ∧
    ¬ aligned s.cfg s.em.alu ∧ s.cfg.misalignedPolicy = .fault

/-- A channel that the instruction in DE uses is near-forwarded from a lw in EM (R81). -/
abbrev NearLoadNow (s : State) : Prop :=
  s.em.instr.name = .lw ∧
    ((usesA s.de.instr = true ∧ wreg s.cfg s.em.instr = some s.de.instr.rs) ∨
     (usesB s.cfg s.de.instr = true ∧ wreg s.cfg s.em.instr = some s.de.instr.rt))

/-- The execute stage of the next cycle raises `UnresolvedLoadUse` (R81, R108). -/
abbrev UnresolvedNow (s : State) : Prop := NearLoadNow s ∧ s.cfg.nearLoadForward = .fault

/-- The next cycle raises no ModelFault: the premise R108 asks a claim to take. -/
abbrev Clear (s : State) : Prop := ¬ MisalignedNow s ∧ ¬ UnresolvedNow s

/-- The machine runs, and no earlier instruction is in flight: every latch holds noop, with any
derived fields (R29). -/
abbrev Drained (s : State) : Prop :=
  s.run = .running ∧ s.fd.instr = .noop ∧ s.de.instr = .noop ∧ s.em.instr = .noop ∧ s.mw.instr = .noop

/-- The four words after the one at `pc` inject noop, as program words or because the program is
exhausted (R72). -/
abbrev IdleAfter (s : State) : Prop :=
  inject { s with pc := s.pc + 4 } = .noop ∧ inject { s with pc := s.pc + 8 } = .noop ∧
    inject { s with pc := s.pc + 12 } = .noop ∧ inject { s with pc := s.pc + 16 } = .noop

/-- The next instruction travels the pipeline alone. -/
abbrev Alone (s : State) : Prop := Drained s ∧ IdleAfter s

/-- The state five cycles after an instruction was injected alone at `s`, with registers `x1`,
memory `m1` and `n` stalls: everything else is as at `s` but for `pc`, the counters and the
latches, which hold noop again (DE with its reads of register 0, R29). -/
def retired (s : State) (x1 : Regs) (m1 : Memory) (n : Nat) : State :=
  { s with
    regs := x1
    dmem := m1
    pc := s.pc + BitVec.ofNat 32 (20 - 4 * n)
    fd := .noop
    de := decodeStage s.cfg .noop x1
    em := .noop
    mw := .noop
    cycles := s.cycles + 5
    stalls := s.stalls + n }

/-- The one stall of a lone `lw` whose destination is an ordinary register 0: the noop behind it has
zero fields (R74, R124). -/
def loneStall (cfg : Config) (rt : Field5) : Nat := if rt = 0 ∧ cfg.r0Hardwired = false then 1 else 0

/-- An instruction whose ALU value is 0 (R101, R103 to R105). -/
abbrev ZeroResult (i : Instr) : Prop :=
  i.name = .noop ∨ i.name = .halt ∨ i.name = .bne ∨ i.name = .unknown

/-- The hazard unit requires a stall (R74). -/
abbrev LoadUse (s : State) : Prop :=
  s.de.instr.name = .lw ∧ ¬ (s.cfg.r0Hardwired = true ∧ s.de.instr.rt = 0) ∧
    (s.fd.instr.rs = s.de.instr.rt ∨ s.fd.instr.rt = s.de.instr.rt) ∧
    wreg s.cfg s.fd.instr ≠ some s.de.instr.rt

/-- `x1` is `x` with `v` written to register `r` and nothing else changed; a write to a hard-wired
register 0 is dropped (R17). -/
abbrev Wrote (cfg : Config) (x x1 : Regs) (r : Field5) (v : Word) : Prop :=
  if cfg.r0Hardwired = true ∧ r = 0 then x1 = x
  else ∀ q : Field5, x1[q.toNat] = if q = r then v else x[q.toNat]

/-- An operand channel's value with the near test on: near, else far, else the value read at decode
(R79, R80). -/
def nearFirst (s : State) (src : Field5) (read : Word) : Word :=
  if wreg s.cfg s.em.instr = some src then s.em.alu
  else if wreg s.cfg s.mw.instr = some src then
    (if s.mw.instr.name = .lw then s.mw.mdata else s.mw.alu)
  else read

/-- An operand channel's value with the near test off, as `stale` makes it (R81). -/
def farOnly (s : State) (src : Field5) (read : Word) : Word :=
  if wreg s.cfg s.mw.instr = some src then
    (if s.mw.instr.name = .lw then s.mw.mdata else s.mw.alu)
  else read

/-- The EM latch that an instruction leaves on operands `a` and `b`, with `read` the value of `rt`
read at decode, as the instruction rules write it (R27, R80, R93 to R105). -/
def Executed (cfg : Config) (i : Instr) (a b read : Word) (e : EMLatch) : Prop :=
  e.instr = i ∧
  match i with
  | .add _ _ _ _ => e.alu = a + b ∧ e.wdata = 0
  | .sub _ _ _ _ => e.alu = a - b ∧ e.wdata = 0
  | .sll _ _ _ shamt => e.alu = b <<< shamt.toNat ∧ e.wdata = 0
  | .lw _ _ imm16 => e.alu = a + imm16.signExtend 32 ∧ e.wdata = 0
  | .sw _ _ imm16 => e.alu = a + imm16.signExtend 32 ∧
      e.wdata = if cfg.forwardStoreData = true then b else read
  | .andi _ _ imm16 => e.alu = a &&& imm16.setWidth 32 ∧ e.wdata = 0
  | .ori _ _ imm16 => e.alu = a ||| imm16.setWidth 32 ∧ e.wdata = 0
  | .bne _ _ _ => e.alu = 0 ∧ e.wdata = 0
  | .noop => e.alu = 0 ∧ e.wdata = 0
  | .halt => e.alu = 0 ∧ e.wdata = 0
  | .unknownR _ _ _ _ _ => e.alu = 0 ∧ e.wdata = 0
  | .unknownI _ _ _ _ => e.alu = 0 ∧ e.wdata = 0

/-- The state five cycles after `i` was injected at `s`: the cycle that injects it, then four
more. -/
def afterFive (i : Instr) (s u : State) : Prop :=
  ∃ t, exec i s = .next t ∧ Host.Core.run core 4 t = .next u

/-- The invariant of the machine. -/
structure Inv (s : State) : Prop where
  /-- Data memory keeps its canonical form. -/
  memoryForm : Memory.wf s.dmem
  /-- No cell lies outside the extent (R35). -/
  memoryExtent : Memory.inExtent s.cfg.dmemWords s.dmem
  /-- `pc` is a multiple of 4 (R20). -/
  pcAligned : s.pc.toNat % 4 = 0
  /-- DE holds the bubble, or the current values of the registers it names (R29, R71, R77). -/
  decodeReads : s.de = .noop ∨ s.de = decodeStage s.cfg s.de.instr s.regs
  /-- The write-data slot is 0 but for sw (R27). -/
  writeSlot : s.em.instr.name ≠ .sw → s.em.wdata = 0
  /-- The memory-data slot is 0 but for lw (R28). -/
  dataSlot : s.mw.instr.name ≠ .lw → s.mw.mdata = 0
  /-- A no-effect instruction in EM has ALU value 0 (R29). -/
  executeZero : ZeroResult s.em.instr → s.em.alu = 0
  /-- A no-effect instruction in MW has ALU value 0 (R29). -/
  memoryZero : ZeroResult s.mw.instr → s.mw.alu = 0
  /-- Halted exactly when halt is in MW (R30, R86). -/
  haltInMW : s.run = .halted ↔ s.mw.instr = .halt
  /-- A hard-wired register 0 holds 0 (R17). -/
  register0 : s.cfg.r0Hardwired = true → readReg { s.cfg with r0Hardwired := false } s.regs 0 = 0
  /-- `pc` counts the advancing cycles; a faulting cycle is counted and advances nothing
  (R19, R31, R32, R88). -/
  pcCounts : ∃ faulting, faulting = (if s.run = .running ∨ s.run = .halted then 0 else 1) ∧
    s.stalls + faulting ≤ s.cycles ∧
    s.pc = BitVec.ofNat 32 (4 * (s.cycles - s.stalls - faulting))

/-- One instruction executed by itself on registers and memory, no pipeline between: its operands
are the registers' values, its access and its write-back are done at once. -/
def seqStep (cfg : Config) (i : Instr) (x : Regs) (m : Memory) : Except Fault (Regs × Memory) :=
  match memoryStage cfg
      { instr := i, alu := aluResult i (readReg cfg x i.rs) (readReg cfg x i.rt),
        wdata := if i.name = .sw then readReg cfg x i.rt else 0 } m with
  | .error r => .error r
  | .ok (mw1, m1) => .ok (writeback cfg x mw1, m1)

/-- A program executed word by word, in index order (R102: control flow is sequential). -/
def seqRun (cfg : Config) : List Word → Regs → Memory → Except Fault (Regs × Memory)
  | [], x, m => .ok (x, m)
  | w :: rest, x, m =>
    match seqStep cfg (decode cfg w) x m with
    | .error r => .error r
    | .ok (x1, m1) => seqRun cfg rest x1 m1

/-- How many words of a program decode to lw (R89). -/
def loadCount (cfg : Config) (program : List Word) : Nat :=
  (program.filter (fun w => decide ((decode cfg w).name = .lw))).length

end Sys2Proof.Safety
end

