-- ==== Sys2Proof/Certificates/Slice0/Obligations.lean ====
section
/-! DEFINITION. The statements for the provers. A statement about an instruction in flight holds for
every configuration, since State carries it, and for every other instruction in the latches. -/

open Sys2Proof Sys2Proof.Machine Sys2Proof.Safety

/-! ## Decoding and encoding -/

/-- R54: opcode and func alone give the type of every word. -/
def Obligations.DecodeClassifiesByOpcodeAndFunc : Prop :=
  ∀ (cfg : Config) (w : Word),
    let op := w.extractLsb' 26 6
    let fn := w.extractLsb' 0 6
    (decode cfg w).type = if op = 0 ∧ (fn = 0 ∨ fn = 1) then .x else if op = 0 then .r else .i

/-- R55: an X-type word sets only `func`; bits 25:6 are ignored, so under the default codes every
word `000000 x..x 000000` is noop and every word `000000 x..x 000001` is halt. -/
def Obligations.XTypeWordsKeepOnlyFunc : Prop :=
  ∀ cfg : Config, cfg.wf →
    (∀ w : Word, w.extractLsb' 26 6 = 0 → (w.extractLsb' 0 6 = 0 ∨ w.extractLsb' 0 6 = 1) →
      (decode cfg w).record cfg =
        { name := if w.extractLsb' 0 6 = cfg.fnNoop then .noop else .halt, type := .x,
          rs := 0, rt := 0, rd := 0, shamt := 0, imm := 0, func := w.extractLsb' 0 6, opcode := 0 } ∧
      ((decode cfg w).name = .halt ↔ w.extractLsb' 0 6 = cfg.fnHalt)) ∧
    (∀ ignored : BitVec 20,
      decode Config.default (0#6 ++ ignored ++ 0#6) = .noop ∧
      decode Config.default (0#6 ++ ignored ++ 1#6) = .halt)

/-- R56, with the R rows of R58: an R-type word keeps all its fields and takes its name from `func`
alone. -/
def Obligations.RTypeWordsKeepTheirFields : Prop :=
  ∀ (cfg : Config) (w : Word),
    let fn := w.extractLsb' 0 6
    w.extractLsb' 26 6 = 0 → ¬ (fn = 0 ∨ fn = 1) →
      (decode cfg w).record cfg =
        { name := if fn = cfg.fnAdd then .add else if fn = cfg.fnSub then .sub
            else if fn = cfg.fnSll then .sll else .unknown,
          type := .r, rs := w.extractLsb' 21 5, rt := w.extractLsb' 16 5, rd := w.extractLsb' 11 5,
          shamt := w.extractLsb' 6 5, imm := 0, func := fn, opcode := 0 }

/-- R57, with the I rows of R58: an I-type word keeps its fields and its raw opcode; the immediate is
sign-extended for lw and sw and zero-extended for andi, ori, bne and unknown. -/
def Obligations.ITypeWordsExtendByName : Prop :=
  ∀ (cfg : Config) (w : Word),
    let op := w.extractLsb' 26 6
    let imm16 := w.extractLsb' 0 16
    op ≠ 0 →
      let name : Mnemonic := if op = cfg.opLw then .lw else if op = cfg.opSw then .sw
        else if op = cfg.opAndi then .andi else if op = cfg.opOri then .ori
        else if op = cfg.opBne then .bne else .unknown
      (decode cfg w).record cfg =
        { name := name, type := .i, rs := w.extractLsb' 21 5, rt := w.extractLsb' 16 5, rd := 0,
          shamt := 0, func := 0, opcode := op,
          imm := if name = .lw ∨ name = .sw then imm16.signExtend 32 else imm16.setWidth 32 }

/-- R61: the map of all words by mask and match, in priority order, for the default codes and every
`FN_SLL` (the default 0 makes row 5 unreachable, since row 1 comes first). -/
def Obligations.OpcodeMapByMaskAndMatch : Prop :=
  ∀ (fnSll : Field6) (w : Word),
    let i := decode { Config.default with fnSll := fnSll } w
    let rs := w.extractLsb' 21 5
    let rt := w.extractLsb' 16 5
    let rd := w.extractLsb' 11 5
    let sh := w.extractLsb' 6 5
    let imm := w.extractLsb' 0 16
    if w &&& 0xFC00003F#32 = 0x00000000#32 then i = .noop
    else if w &&& 0xFC00003F#32 = 0x00000001#32 then i = .halt
    else if w &&& 0xFC00003F#32 = 0x00000020#32 then i = .add rs rt rd sh
    else if w &&& 0xFC00003F#32 = 0x00000022#32 then i = .sub rs rt rd sh
    else if w &&& 0xFC00003F#32 = fnSll.setWidth 32 then i = .sll rs rt rd sh
    else if w &&& 0xFC000000#32 = 0x00000000#32 then i = .unknownR rs rt rd sh (w.extractLsb' 0 6)
    else if w &&& 0xFC000000#32 = 0x8C000000#32 then i = .lw rs rt imm
    else if w &&& 0xFC000000#32 = 0xAC000000#32 then i = .sw rs rt imm
    else if w &&& 0xFC000000#32 = 0x30000000#32 then i = .andi rs rt imm
    else if w &&& 0xFC000000#32 = 0x34000000#32 then i = .ori rs rt imm
    else if w &&& 0xFC000000#32 = 0x14000000#32 then i = .bne rs rt imm
    else i = .unknownI (w.extractLsb' 26 6) rs rt imm

/-- Decode and encode agree (30_encoding): every well-formed instruction, with every operand at
every value, is what its word decodes to. -/
def Obligations.EveryInstructionDecodesFromItsWord : Prop :=
  ∀ (cfg : Config) (i : Instr), WellFormed cfg i = true → decode cfg (encode cfg i) = i

/-- The other direction (30_encoding): every word decodes to a well-formed instruction, whose word
it is, but for the bits 25:6 that X-type words ignore. -/
def Obligations.EveryWordEncodesBack : Prop :=
  ∀ (cfg : Config) (w : Word), cfg.wf →
    WellFormed cfg (decode cfg w) = true ∧
    encode cfg (decode cfg w) = if (decode cfg w).type = .x then w &&& 0xFC00003F#32 else w

/-- Words written out from the spec's encodings decode to the records of table V-DEC
(95_test_vectors 2.1). -/
def Obligations.WrittenOutWordsDecode : Prop :=
  decode Config.default 0x00000000#32 = .noop ∧
  decode Config.default 0x03FFFFC1#32 = .halt ∧
  decode Config.default 0x010848A0#32 = .add 8 8 9 2 ∧
  decode Config.default 0x01285022#32 = .sub 9 8 10 0 ∧
  decode Config.default 0x00084900#32 = .noop ∧
  decode { Config.default with fnSll := 0x3F } 0x0008493F#32 = .sll 0 8 9 4 ∧
  decode Config.default 0x8D49FFFC#32 = .lw 10 9 0xFFFC ∧
  decode Config.default 0xAC080008#32 = .sw 0 8 8 ∧
  decode Config.default 0x3109FF00#32 = .andi 8 9 0xFF00 ∧
  decode Config.default 0x35098001#32 = .ori 8 9 0x8001 ∧
  decode Config.default 0x15090003#32 = .bne 8 9 3 ∧
  decode Config.default 0x04000001#32 = .unknownI 1 0 0 1 ∧
  decode Config.default 0x0108483F#32 = .unknownR 8 8 9 0 63

/-- 30_encoding section 3 (sll): under the default `FN_SLL = 0` every word with opcode 0 and func 0 is
noop, and while `FN_SLL` is 0, 1 or the code of add or sub, no word decodes to sll. -/
def Obligations.ShadowedSllNeverDecodes : Prop :=
  (∀ w : Word, w.extractLsb' 26 6 = 0 → w.extractLsb' 0 6 = 0 → decode Config.default w = .noop) ∧
  (∀ cfg : Config, (cfg.fnSll = 0 ∨ cfg.fnSll = 1 ∨ cfg.fnSll = cfg.fnAdd ∨ cfg.fnSll = cfg.fnSub) →
    ∀ w : Word, (decode cfg w).name ≠ .sll)

/-- R24: `NOOP` is `decode(0x00000000)`, and both the synthetic noop and the stall bubble are it. -/
def Obligations.NoopIsTheZeroWord : Prop :=
  decode Config.default 0#32 = .noop ∧
  Instr.noop.record Config.default =
    { name := .noop, type := .x, rs := 0, rt := 0, rd := 0, shamt := 0, imm := 0, func := 0,
      opcode := 0 } ∧
  (∀ s : State, s.program.length ≤ s.pc.toNat / 4 → inject s = .noop) ∧
  (∀ (i : Instr) (s : State), s.run = .running → Clear s → LoadUse s →
    ∃ t, exec i s = .next t ∧ t.de.instr = .noop)

/-! ## Reset and launch -/

/-- R120: what a launch's reset leaves, for every configuration, program and data. -/
def Obligations.LoadedStateHasTheResetValues : Prop :=
  ∀ (cfg : Config) (program data : List Word),
    let s := State.loaded cfg program data
    s.run = .running ∧ s.fd = ⟨.noop⟩ ∧ s.de = ⟨.noop, 0, 0⟩ ∧ s.em = ⟨.noop, 0, 0⟩ ∧
    s.mw = ⟨.noop, 0, 0⟩ ∧ s.pc = 0 ∧ (∀ r : Field5, s.regs[r.toNat] = 0) ∧
    s.cycles = 0 ∧ s.stalls = 0 ∧ s.program = program ∧ s.cfg = cfg ∧
    (∀ k, Memory.readWord cfg.byteOrder s.dmem (4 * k) = (data[k]?).getD 0) ∧
    (∀ w rest, program = w :: rest → inject s = decode cfg w)

/-- R122: a launch is admitted exactly when the precondition holds, and is refused otherwise. -/
def Obligations.LaunchAdmittedExactlyOnPrecondition : Prop :=
  ∀ (cfg : Config) (program data : List Word),
    let good := ∃ before last, program = before ++ [last] ∧ (decode cfg last).name = .halt ∧
      (∀ w ∈ before, (decode cfg w).name ≠ .halt) ∧ program.length ≤ 2 ^ 30 ∧
      data.length ≤ cfg.dmemWords
    (good → launch cfg program data = .next (State.loaded cfg program data)) ∧
    (¬ good → launch cfg program data = .refused .launchNotAdmitted)

/-! ## Data memory -/

/-- A word stored is the word loaded back, in either byte order, and every other word is as before;
an out-of-range store changes nothing and its address reads 0 (20_memory, rules of MemRead and
MemWrite, and byte order). -/
def Obligations.StoredWordIsLoadedBack : Prop :=
  ∀ (cfg : Config) (m m1 : Memory) (ea v : Word), Memory.wf m → memWrite cfg m ea v = .ok m1 →
    (inRange cfg ea → (aligned cfg ea ∨ cfg.misalignedPolicy = .truncate) →
      memRead cfg m1 ea = .ok v) ∧
    (¬ inRange cfg ea → m1 = m ∧ memRead cfg m1 ea = .ok 0) ∧
    (∀ other, dataWordAt cfg other ≠ dataWordAt cfg ea → memRead cfg m1 other = memRead cfg m other)

/-- R41: what `MISALIGNED_POLICY` makes of an in-range address that is not a multiple of 4. -/
def Obligations.MisalignedPolicyDecides : Prop :=
  ∀ (cfg : Config) (m : Memory) (ea v : Word),
    let off := (ea - cfg.dataBase).toNat
    off < 4 * cfg.dmemWords → off % 4 ≠ 0 →
      (cfg.misalignedPolicy = .fault →
        memRead cfg m ea = .error .misalignedData ∧ memWrite cfg m ea v = .error .misalignedData) ∧
      (cfg.misalignedPolicy = .truncate →
        memRead cfg m ea = .ok (Memory.readWord cfg.byteOrder m (4 * (off / 4))) ∧
        memWrite cfg m ea v = .ok (Memory.writeWord cfg.byteOrder m (4 * (off / 4)) v)) ∧
      (cfg.misalignedPolicy = .outOfRange →
        memRead cfg m ea = .ok 0 ∧ memWrite cfg m ea v = .ok m)

/-- R39: the memory stage of a lw in EM, whatever instruction is injected: out of range reads 0, an
aligned address reads its data word, and a misaligned one follows the policy. -/
def Obligations.LoadReadsItsDataWord : Prop :=
  ∀ (i : Instr) (s : State), s.run = .running → s.em.instr.name = .lw → ¬ UnresolvedNow s →
    let off := (s.em.alu - s.cfg.dataBase).toNat
    let loads := fun v : Word => ∃ t, exec i s = .next t ∧ t.mw = ⟨s.em.instr, s.em.alu, v⟩ ∧
      t.dmem = s.dmem
    (4 * s.cfg.dmemWords ≤ off → loads 0) ∧
    (off < 4 * s.cfg.dmemWords → off % 4 = 0 → loads (Memory.readWord s.cfg.byteOrder s.dmem off)) ∧
    (off < 4 * s.cfg.dmemWords → off % 4 ≠ 0 →
      (s.cfg.misalignedPolicy = .truncate →
        loads (Memory.readWord s.cfg.byteOrder s.dmem (4 * (off / 4)))) ∧
      (s.cfg.misalignedPolicy = .outOfRange → loads 0) ∧
      (s.cfg.misalignedPolicy = .fault →
        exec i s = .next { s with run := .faulted .misalignedData, cycles := s.cycles + 1 }))

/-- R40: the memory stage of a sw in EM: out of range is dropped, an aligned address gets the
write-data slot, and a misaligned one follows the policy. -/
def Obligations.StoreWritesItsDataWord : Prop :=
  ∀ (i : Instr) (s : State), s.run = .running → s.em.instr.name = .sw →
    let off := (s.em.alu - s.cfg.dataBase).toNat
    let stores := fun m1 : Memory => ∃ t, exec i s = .next t ∧ t.mw = ⟨s.em.instr, s.em.alu, 0⟩ ∧
      t.dmem = m1
    (4 * s.cfg.dmemWords ≤ off → stores s.dmem) ∧
    (off < 4 * s.cfg.dmemWords → off % 4 = 0 →
      stores (Memory.writeWord s.cfg.byteOrder s.dmem off s.em.wdata)) ∧
    (off < 4 * s.cfg.dmemWords → off % 4 ≠ 0 →
      (s.cfg.misalignedPolicy = .truncate →
        stores (Memory.writeWord s.cfg.byteOrder s.dmem (4 * (off / 4)) s.em.wdata)) ∧
      (s.cfg.misalignedPolicy = .outOfRange → stores s.dmem) ∧
      (s.cfg.misalignedPolicy = .fault →
        exec i s = .next { s with run := .faulted .misalignedData, cycles := s.cycles + 1 }))

/-! ## The stages of one cycle -/

/-- A clock event while Running runs the decoded instruction at the program counter, or the
synthetic noop once the program is exhausted; a word placed by `withFetchWord` is what the next
step runs (40_pipeline, injection and the cycle). -/
def Obligations.StepRunsTheFetchedInstruction : Prop :=
  (∀ (s : State) (w : Word), s.run = .running → s.program[s.pc.toNat / 4]? = some w →
    step s = exec (decode s.cfg w) s) ∧
  (∀ s : State, s.run = .running → s.program[s.pc.toNat / 4]? = none → step s = exec .noop s) ∧
  (∀ (s : State) (nbits w : Nat),
    step (s.withFetchWord nbits w) =
      exec (decode s.cfg (BitVec.ofNat 32 w)) (s.withFetchWord nbits w))

/-- R70: write-back commits the instruction in MW: the ALU result for add, sub, sll, andi and ori, the
loaded word for lw, nothing for the others, and at most one register is written. -/
def Obligations.WritebackCommitsTheInstructionInMW : Prop :=
  ∀ (i : Instr) (s : State), s.run = .running → Clear s →
    ∃ t, exec i s = .next t ∧
    match s.mw.instr with
    | .add _ _ rd _ => Wrote s.cfg s.regs t.regs rd s.mw.alu
    | .sub _ _ rd _ => Wrote s.cfg s.regs t.regs rd s.mw.alu
    | .sll _ _ rd _ => Wrote s.cfg s.regs t.regs rd s.mw.alu
    | .andi _ rt _ => Wrote s.cfg s.regs t.regs rt s.mw.alu
    | .ori _ rt _ => Wrote s.cfg s.regs t.regs rt s.mw.alu
    | .lw _ rt _ => Wrote s.cfg s.regs t.regs rt s.mw.mdata
    | .sw _ _ _ | .bne _ _ _ | .noop | .halt | .unknownR _ _ _ _ _ | .unknownI _ _ _ _ =>
      t.regs = s.regs

/-- R74: a cycle stalls exactly when DE holds a lw, FD's raw rs or rt field is the register the load
will write, and that register is not FD's own destination. -/
def Obligations.StallExactlyOnLoadUse : Prop :=
  ∀ (i : Instr) (s : State), s.run = .running → Clear s →
    ∃ t, exec i s = .next t ∧
      (LoadUse s → t.stalls = s.stalls + 1) ∧ (¬ LoadUse s → t.stalls = s.stalls)

/-- R75: a stall holds the instruction in FD and the program counter, puts the NOOP latch into DE and
counts; EM and MW advance as in every cycle. -/
def Obligations.StallHoldsFetchAndInsertsBubble : Prop :=
  ∀ (i : Instr) (s : State), s.run = .running → Clear s → LoadUse s →
    ∃ t, exec i s = .next t ∧ t.fd = s.fd ∧ t.de = ⟨.noop, 0, 0⟩ ∧ t.pc = s.pc ∧
      t.stalls = s.stalls + 1 ∧ t.em.instr = s.de.instr ∧ t.mw.instr = s.em.instr ∧
      t.mw.alu = s.em.alu

/-- R76 and R77: without a stall every latch advances, the injected instruction enters FD, pc moves by
4, and DE reads both registers of FD's record from the register file as write-back leaves it. -/
def Obligations.AdvanceShiftsEveryLatch : Prop :=
  ∀ (i : Instr) (s : State), s.run = .running → Clear s → ¬ LoadUse s →
    ∃ t, exec i s = .next t ∧ t.fd = ⟨i⟩ ∧ t.pc = s.pc + 4 ∧ t.stalls = s.stalls ∧
      t.em.instr = s.de.instr ∧ t.mw.instr = s.em.instr ∧ t.mw.alu = s.em.alu ∧
      (let rd := fun j : Field5 =>
        if s.cfg.r0Hardwired = true ∧ j = 0 then 0 else t.regs[j.toNat]
      t.de = ⟨s.fd.instr, rd s.fd.instr.rs, rd s.fd.instr.rt⟩)

/-- R80 (with the selects of R79 and the results of the instruction rules): each operand is taken from
EM when the instruction there writes the register, else from MW, else from the read at decode; without
`FORWARD_STORE_DATA` the store data is that read. -/
def Obligations.ExecuteTakesForwardedOperands : Prop :=
  ∀ (i : Instr) (s : State), s.run = .running → Clear s →
    (NearLoadNow s → s.cfg.nearLoadForward = .ea) →
    ∃ t, exec i s = .next t ∧
      Executed s.cfg s.de.instr (nearFirst s s.de.instr.rs s.de.readA)
        (nearFirst s s.de.instr.rt s.de.readB) s.de.readB t.em

/-- R81: a used channel near-forwarded from a lw in EM faults, takes the effective address, or ignores
the near match, as `NEAR_LOAD_FORWARD` says. -/
def Obligations.NearLoadForwardDecides : Prop :=
  ∀ (i : Instr) (s : State), s.run = .running → ¬ MisalignedNow s → NearLoadNow s →
    (s.cfg.nearLoadForward = .fault →
      exec i s = .next { s with run := .faulted .unresolvedLoadUse, cycles := s.cycles + 1 }) ∧
    (s.cfg.nearLoadForward = .ea → ∃ t, exec i s = .next t ∧
      Executed s.cfg s.de.instr (nearFirst s s.de.instr.rs s.de.readA)
        (nearFirst s s.de.instr.rt s.de.readB) s.de.readB t.em) ∧
    (s.cfg.nearLoadForward = .stale → ∃ t, exec i s = .next t ∧
      Executed s.cfg s.de.instr (farOnly s s.de.instr.rs s.de.readA)
        (farOnly s s.de.instr.rt s.de.readB) s.de.readB t.em)

/-- 40_pipeline section 11: a cycle that raises a ModelFault commits nothing but the run state and the
count, the memory stage's reason before the execute stage's. That a clock event at a Faulted state
answers no next state is the model's choice (log 7): the spec says that Faulted has no cycle. -/
def Obligations.ModelFaultCommitsNothing : Prop :=
  (∀ (i : Instr) (s : State), s.run = .running → MisalignedNow s →
    exec i s = .next { s with run := .faulted .misalignedData, cycles := s.cycles + 1 }) ∧
  (∀ (i : Instr) (s : State), s.run = .running → ¬ MisalignedNow s → UnresolvedNow s →
    exec i s = .next { s with run := .faulted .unresolvedLoadUse, cycles := s.cycles + 1 }) ∧
  (∀ (s t : State) (r : Fault), s.run = .faulted r → step s ≠ .next t)

/-- 60_exceptions section 1: the two ModelFaults arise in the listed cases and in no other, whatever
instruction is injected, and `truncate`, `out_of_range`, `ea` and `stale` remove them. -/
def Obligations.FaultsOnlyInTheListedCases : Prop :=
  ∀ (i : Instr) (s : State), s.run = .running →
    ∃ t, exec i s = .next t ∧
      (t.run = .faulted .misalignedData ↔ MisalignedNow s) ∧
      (t.run = .faulted .unresolvedLoadUse ↔ UnresolvedNow s ∧ ¬ MisalignedNow s) ∧
      (s.cfg.misalignedPolicy ≠ .fault → s.cfg.nearLoadForward ≠ .fault →
        ∀ r, t.run ≠ .faulted r)

/-- 40_pipeline section 11 and the model's log 6: the machine is Halted by the cycle that places halt
in MW, that cycle is counted, and no clock event after it changes anything. -/
def Obligations.HaltInMWEndsTheRun : Prop :=
  ∀ (i : Instr) (s : State), s.run = .running → Clear s →
    ∃ t, exec i s = .next t ∧ t.cycles = s.cycles + 1 ∧
      (s.em.instr.name = .halt → t.run = .halted ∧ step t = .next t) ∧
      (s.em.instr.name ≠ .halt → t.run = .running)

/-- R31 and R32: `cycles` counts every cycle and `stalls` every stall cycle, both from 0, and nothing a
cycle computes depends on either. -/
def Obligations.CountersCountAndAreNotRead : Prop :=
  State.reset.cycles = 0 ∧ State.reset.stalls = 0 ∧
  ∀ (i : Instr) (s : State), s.run = .running →
    ∃ t, exec i s = .next t ∧ t.cycles = s.cycles + 1 ∧
      (Clear s → LoadUse s → t.stalls = s.stalls + 1) ∧
      (¬ (Clear s ∧ LoadUse s) → t.stalls = s.stalls) ∧
      ∀ c k : Nat, exec i { s with cycles := s.cycles + c, stalls := s.stalls + k } =
        .next { t with cycles := t.cycles + c, stalls := t.stalls + k }

/-- No instruction redirects control (44_branch): a step keeps pc or moves it by 4, and moves it
exactly in a cycle that neither stalls nor faults, whatever bne compares. -/
def Obligations.PcOnlyHoldsOrAdvances : Prop :=
  ∀ s t : State, step s = .next t →
    (s.run = .running ∧ Clear s ∧ ¬ LoadUse s → t.pc = s.pc + 4) ∧
    (¬ (s.run = .running ∧ Clear s ∧ ¬ LoadUse s) → t.pc = s.pc)

/-- The frame of every instruction in flight (40_pipeline section 11, 20_memory section 3): only the
register that the instruction in MW writes, and only the four bytes that a sw in EM stores to, change;
the program and the configuration never do. -/
def Obligations.CycleFrame : Prop :=
  ∀ (i : Instr) (s : State), s.run = .running → Clear s →
    ∃ t, exec i s = .next t ∧
      (∀ q : Field5, wreg s.cfg s.mw.instr ≠ some q → t.regs[q.toNat] = s.regs[q.toNat]) ∧
      (s.em.instr.name ≠ .sw → ∀ a, Memory.readByte t.dmem a = Memory.readByte s.dmem a) ∧
      (s.em.instr.name = .sw → dataWordAt s.cfg s.em.alu = .ok none →
        ∀ a, Memory.readByte t.dmem a = Memory.readByte s.dmem a) ∧
      (∀ off, s.em.instr.name = .sw → dataWordAt s.cfg s.em.alu = .ok (some off) →
        ∀ a, (a < off ∨ off + 4 ≤ a) → Memory.readByte t.dmem a = Memory.readByte s.dmem a) ∧
      t.program = s.program ∧ t.cfg = s.cfg

/-- The program and the configuration are launch constants (10_state sections 1 and 8): no step changes
either. -/
def Obligations.LaunchConstantsNeverChange : Prop :=
  ∀ s t : State, step s = .next t → t.program = s.program ∧ t.cfg = s.cfg

/-- 40_pipeline section 12: a stall is never followed by a stall, and the instruction held in FD enters
DE in the next cycle. -/
def Obligations.NoTwoStallsInARow : Prop :=
  ∀ s t u : State, step s = .next t → t.stalls = s.stalls + 1 → step t = .next u →
    u.stalls = t.stalls ∧ (t.run = .running → Clear t → u.de.instr = s.fd.instr)

/-- 10_state section 2, register 0 hard-wired: no cycle writes it, a read at decode gives 0, it is never
a write-back register, and a lw into it stalls nothing. -/
def Obligations.HardwiredRegister0IsConstant : Prop :=
  ∀ (i : Instr) (s : State), s.run = .running → s.cfg.r0Hardwired = true →
    (∀ j : Instr, wreg s.cfg j ≠ some 0) ∧
    ∃ t, exec i s = .next t ∧ t.regs[0] = s.regs[0] ∧
      (s.de.instr.rt = 0 → t.stalls = s.stalls) ∧
      (Clear s → ¬ LoadUse s → (s.fd.instr.rs = 0 → t.de.readA = 0) ∧
        (s.fd.instr.rt = 0 → t.de.readB = 0))

/-- 10_state section 2, register 0 ordinary: it is written and read like any other register. -/
def Obligations.OrdinaryRegister0IsWritten : Prop :=
  ∀ (i : Instr) (s : State), s.run = .running → Clear s → s.cfg.r0Hardwired = false →
    destField s.mw.instr = some 0 →
    ∃ t, exec i s = .next t ∧ t.regs[0] = commitValue s.mw ∧
      (¬ LoadUse s → s.fd.instr.rs = 0 → t.de.readA = commitValue s.mw)

/-- The signals of the abstract interface (40_pipeline section 1) describe the cycle: the word requested
enters FD, a read returns `dmem_rdata` to MW, and memory changes only under `dmem_we`. -/
def Obligations.SignalsDescribeTheCycle : Prop :=
  ∀ s : State, s.run = .running → Clear s →
    ∃ t, step s = .next t ∧
      (∀ w, (signals s).imemWord = some w → ¬ LoadUse s → t.fd = ⟨decode s.cfg w⟩) ∧
      ((signals s).imemValid = true ↔ ∃ w, (signals s).imemWord = some w) ∧
      (signals s).imemIndex.toNat = s.pc.toNat / 4 ∧
      ((signals s).dmemRe = true → (signals s).dmemRdata = some t.mw.mdata ∧
        (signals s).dmemAddr = some t.mw.alu) ∧
      ((signals s).dmemWe = true →
        memWrite s.cfg s.dmem s.em.alu (signals s).dmemWdata = .ok t.dmem ∧
        (signals s).dmemAddr = some s.em.alu) ∧
      ((signals s).dmemWe = false → t.dmem = s.dmem) ∧
      ((signals t).halted = true ↔ s.em.instr.name = .halt)

/-! ## Instructions travelling alone: completion, result and frame

`retired` says the whole state five cycles after the instruction was injected: the registers and the
memory it is given are the only ones that differ. -/

/-- 41_register_alu: add, sub and sll complete, write `x[rd]` with the sum, the difference or the shifted
value modulo 2^32, and change nothing else. -/
def Obligations.RegisterAluInstructionsComplete : Prop :=
  ∀ (s : State) (rs rt rd shamt : Field5), Alone s →
    let a := readReg s.cfg s.regs rs
    let b := readReg s.cfg s.regs rt
    let done := fun v : Word => retired s (writeReg s.cfg s.regs rd v) s.dmem 0
    afterFive (.add rs rt rd shamt) s (done (a + b)) ∧
    afterFive (.sub rs rt rd shamt) s (done (a - b)) ∧
    afterFive (.sll rs rt rd shamt) s (done (b <<< shamt.toNat))

/-- 43_immediate_logic: andi and ori complete, write `x[rt]` from `x[rs]` and the zero-extended
immediate, and change nothing else. -/
def Obligations.ImmediateLogicInstructionsComplete : Prop :=
  ∀ (s : State) (rs rt : Field5) (imm16 : Imm16), Alone s →
    let a := readReg s.cfg s.regs rs
    let done := fun v : Word => retired s (writeReg s.cfg s.regs rt v) s.dmem 0
    afterFive (.andi rs rt imm16) s (done (a &&& imm16.setWidth 32)) ∧
    afterFive (.ori rs rt imm16) s (done (a ||| imm16.setWidth 32))

/-- 42_load_store: lw completes and writes `x[rt]` with the data word at `x[rs]` plus the sign-extended
displacement: 0 out of range, by the policy when misaligned; nothing else changes, but for the one
spurious stall of the noop behind a lw into an ordinary register 0. -/
def Obligations.LoadCompletes : Prop :=
  ∀ (s : State) (rs rt : Field5) (imm16 : Imm16), Alone s →
    let off := (readReg s.cfg s.regs rs + imm16.signExtend 32 - s.cfg.dataBase).toNat
    let word := Memory.readWord s.cfg.byteOrder s.dmem
    let completes := fun v : Word => afterFive (.lw rs rt imm16) s
      (retired s (writeReg s.cfg s.regs rt v) s.dmem (loneStall s.cfg rt))
    (4 * s.cfg.dmemWords ≤ off → completes 0) ∧
    (off < 4 * s.cfg.dmemWords → off % 4 = 0 → completes (word off)) ∧
    (off < 4 * s.cfg.dmemWords → off % 4 ≠ 0 → s.cfg.misalignedPolicy = .truncate →
      completes (word (4 * (off / 4)))) ∧
    (off < 4 * s.cfg.dmemWords → off % 4 ≠ 0 → s.cfg.misalignedPolicy = .outOfRange → completes 0)

/-- 42_load_store: sw completes and writes the data word at `x[rs]` plus the sign-extended displacement
with `x[rt]`: dropped out of range, by the policy when misaligned. Every byte outside the word stored
reads as before, the word stored reads back, and no register changes. -/
def Obligations.StoreCompletes : Prop :=
  ∀ (s : State) (rs rt : Field5) (imm16 : Imm16), Alone s →
    let ea := readReg s.cfg s.regs rs + imm16.signExtend 32
    let off := (ea - s.cfg.dataBase).toNat
    let v := readReg s.cfg s.regs rt
    let completes := fun m1 : Memory => afterFive (.sw rs rt imm16) s (retired s s.regs m1 0)
    let stores := fun base : Nat =>
      completes (Memory.writeWord s.cfg.byteOrder s.dmem base v) ∧
      dataWordAt s.cfg ea = .ok (some base) ∧
      (∀ a, (a < base ∨ base + 4 ≤ a) →
        Memory.readByte (Memory.writeWord s.cfg.byteOrder s.dmem base v) a =
          Memory.readByte s.dmem a) ∧
      (Memory.wf s.dmem → Memory.readWord s.cfg.byteOrder
        (Memory.writeWord s.cfg.byteOrder s.dmem base v) base = v)
    (4 * s.cfg.dmemWords ≤ off → completes s.dmem) ∧
    (off < 4 * s.cfg.dmemWords → off % 4 = 0 → stores off) ∧
    (off < 4 * s.cfg.dmemWords → off % 4 ≠ 0 → s.cfg.misalignedPolicy = .truncate →
      stores (4 * (off / 4))) ∧
    (off < 4 * s.cfg.dmemWords → off % 4 ≠ 0 → s.cfg.misalignedPolicy = .outOfRange →
      completes s.dmem)

/-- 44_branch and 45_special: bne, noop and both unknown rows complete and change no register and no
memory, whatever their fields. -/
def Obligations.NoEffectInstructionsComplete : Prop :=
  ∀ (s : State) (rs rt rd shamt : Field5) (func opcode : Field6) (imm16 : Imm16), Alone s →
    let done := retired s s.regs s.dmem 0
    afterFive .noop s done ∧
    afterFive (.bne rs rt imm16) s done ∧
    afterFive (.unknownR rs rt rd shamt func) s done ∧
    afterFive (.unknownI opcode rs rt imm16) s done

/-- 45_special: halt alone halts the machine in its fourth cycle, with no register and no memory
changed, pc 16 further and four cycles counted. -/
def Obligations.HaltCompletes : Prop :=
  ∀ s : State, Alone s →
    ∃ t, exec .halt s = .next t ∧ Host.Core.run core 3 t = .next
      { s with
        run := .halted, pc := s.pc + 16, cycles := s.cycles + 4, fd := ⟨.noop⟩,
        de := ⟨.noop, readReg s.cfg s.regs 0, readReg s.cfg s.regs 0⟩, em := ⟨.noop, 0, 0⟩,
        mw := ⟨.halt, 0, 0⟩ }

/-- 20_memory section 2 and 60_exceptions section 1: a lone lw or sw with an in-range misaligned address
under `MISALIGNED_POLICY = fault` is Faulted by its fourth cycle, with no register and no memory
changed. -/
def Obligations.LoneMisalignedAccessFaults : Prop :=
  ∀ (s : State) (rs rt : Field5) (imm16 : Imm16), Alone s →
    let off := (readReg s.cfg s.regs rs + imm16.signExtend 32 - s.cfg.dataBase).toNat
    off < 4 * s.cfg.dmemWords → off % 4 ≠ 0 → s.cfg.misalignedPolicy = .fault →
    ∀ i : Instr, (i = .lw rs rt imm16 ∨ i = .sw rs rt imm16) →
      ∃ t u, exec i s = .next t ∧ Host.Core.run core 3 t = .next u ∧
        u.run = .faulted .misalignedData ∧ u.regs = s.regs ∧ u.dmem = s.dmem ∧
        u.cycles = s.cycles + 4

/-! ## Whole-machine statements -/

/-- The invariant `Inv` (10_state sections 2, 3, 6 and 7, 20_memory) is kept by every step, from every
state, reachable or not. -/
def Obligations.EveryStepKeepsTheInvariant : Prop :=
  ∀ s t : State, Inv s → step s = .next t → Inv t

/-- The invariant holds at reset, and at the loaded state of every launch whose data fits. -/
def Obligations.LoadedStateMeetsTheInvariant : Prop :=
  Inv State.reset ∧
  ∀ (cfg : Config) (program data : List Word), data.length ≤ cfg.dmemWords →
    Inv (State.loaded cfg program data)

/-- 40_pipeline section 12, operand correctness: in every state that meets the invariant, an instruction
in DE computes on the values its registers have once the instructions in MW and EM have been written
back, not on any stale value, whatever the distance to the producer. -/
def Obligations.OperandsAreTheValuesProducersCommit : Prop :=
  ∀ (i : Instr) (s : State), Inv s → s.run = .running → Clear s → ¬ NearLoadNow s →
    ∃ t, exec i s = .next t ∧
      let x := writeback s.cfg t.regs t.mw
      t.em.alu = aluResult s.de.instr (readReg s.cfg x s.de.instr.rs) (readReg s.cfg x s.de.instr.rt) ∧
      (s.de.instr.name = .sw → s.cfg.forwardStoreData = true →
        t.em.wdata = readReg s.cfg x s.de.instr.rt)

/-- 20_memory section 5 and 40_pipeline section 12: with store data forwarded and the near-load case
faulting (both defaults), a launch that halts leaves the registers and the data memory that executing
its words one by one, in order, leaves. -/
def Obligations.PipelineRefinesSequentialExecution : Prop :=
  ∀ (cfg : Config) (program data : List Word) (s u : State) (k : Nat),
    launch cfg program data = .next s →
    cfg.forwardStoreData = true → cfg.nearLoadForward = .fault →
    Host.Core.run core k s = .next u → u.run = .halted →
      seqRun cfg program s.regs s.dmem = .ok (u.regs, u.dmem)

/-- 40_pipeline section 12, termination: every admitted launch ends, Halted with
`cycles = N + 3 + stalls` and at most one stall for each lw of the program, or Faulted. The bound leaves
out programs of exactly 2^30 words, for which the count can differ (log 9). -/
def Obligations.EveryLaunchEndsWithItsCycleCount : Prop :=
  ∀ (cfg : Config) (program data : List Word) (s : State),
    launch cfg program data = .next s → program.length < 2 ^ 30 →
    ∃ k u, Host.Core.run core k s = .next u ∧
      ((u.run = .halted ∧ u.cycles = program.length + 3 + u.stalls ∧
        u.stalls ≤ loadCount cfg program) ∨
       ∃ r, u.run = .faulted r)
end

