-- ==== Sys2Proof/Laws/State.lean ====
section
/-! SUPPORT. One lemma for each field of State and each update of it: `enterFaulted`, `commit`,
`withFetchWord`, `afterReset`, `loaded` and `retired`. -/

namespace Sys2Proof.Machine

@[simp] theorem enterFaulted_regs (r : Fault) (s : State) :
    (enterFaulted r s).regs = s.regs := rfl
@[simp] theorem enterFaulted_dmem (r : Fault) (s : State) :
    (enterFaulted r s).dmem = s.dmem := rfl
@[simp] theorem enterFaulted_pc (r : Fault) (s : State) :
    (enterFaulted r s).pc = s.pc := rfl
@[simp] theorem enterFaulted_fd (r : Fault) (s : State) :
    (enterFaulted r s).fd = s.fd := rfl
@[simp] theorem enterFaulted_de (r : Fault) (s : State) :
    (enterFaulted r s).de = s.de := rfl
@[simp] theorem enterFaulted_em (r : Fault) (s : State) :
    (enterFaulted r s).em = s.em := rfl
@[simp] theorem enterFaulted_mw (r : Fault) (s : State) :
    (enterFaulted r s).mw = s.mw := rfl
@[simp] theorem enterFaulted_run (r : Fault) (s : State) :
    (enterFaulted r s).run = .faulted r := rfl
@[simp] theorem enterFaulted_cycles (r : Fault) (s : State) :
    (enterFaulted r s).cycles = s.cycles + 1 := rfl
@[simp] theorem enterFaulted_stalls (r : Fault) (s : State) :
    (enterFaulted r s).stalls = s.stalls := rfl
@[simp] theorem enterFaulted_program (r : Fault) (s : State) :
    (enterFaulted r s).program = s.program := rfl
@[simp] theorem enterFaulted_cfg (r : Fault) (s : State) :
    (enterFaulted r s).cfg = s.cfg := rfl

@[simp] theorem commit_regs (inj : Instr) (s : State) (e : EMLatch) (m : MWLatch) (d : Memory) :
    (commit inj s e m d).regs = writeback s.cfg s.regs s.mw := rfl
@[simp] theorem commit_dmem (inj : Instr) (s : State) (e : EMLatch) (m : MWLatch) (d : Memory) :
    (commit inj s e m d).dmem = d := rfl
@[simp] theorem commit_pc (inj : Instr) (s : State) (e : EMLatch) (m : MWLatch) (d : Memory) :
    (commit inj s e m d).pc = if stalled s then s.pc else s.pc + 4 := rfl
@[simp] theorem commit_fd (inj : Instr) (s : State) (e : EMLatch) (m : MWLatch) (d : Memory) :
    (commit inj s e m d).fd = if stalled s then s.fd else ⟨inj⟩ := rfl
@[simp] theorem commit_de (inj : Instr) (s : State) (e : EMLatch) (m : MWLatch) (d : Memory) :
    (commit inj s e m d).de = 
      if stalled s then .noop else decodeStage s.cfg s.fd.instr (writeback s.cfg s.regs s.mw) := rfl
@[simp] theorem commit_em (inj : Instr) (s : State) (e : EMLatch) (m : MWLatch) (d : Memory) :
    (commit inj s e m d).em = e := rfl
@[simp] theorem commit_mw (inj : Instr) (s : State) (e : EMLatch) (m : MWLatch) (d : Memory) :
    (commit inj s e m d).mw = m := rfl
@[simp] theorem commit_run (inj : Instr) (s : State) (e : EMLatch) (m : MWLatch) (d : Memory) :
    (commit inj s e m d).run = if m.instr.name = .halt then .halted else s.run := rfl
@[simp] theorem commit_cycles (inj : Instr) (s : State) (e : EMLatch) (m : MWLatch) (d : Memory) :
    (commit inj s e m d).cycles = s.cycles + 1 := rfl
@[simp] theorem commit_stalls (inj : Instr) (s : State) (e : EMLatch) (m : MWLatch) (d : Memory) :
    (commit inj s e m d).stalls = s.stalls + if stalled s then 1 else 0 := rfl
@[simp] theorem commit_program (inj : Instr) (s : State) (e : EMLatch) (m : MWLatch) (d : Memory) :
    (commit inj s e m d).program = s.program := rfl
@[simp] theorem commit_cfg (inj : Instr) (s : State) (e : EMLatch) (m : MWLatch) (d : Memory) :
    (commit inj s e m d).cfg = s.cfg := rfl

@[simp] theorem withFetchWord_regs (s : State) (n w : Nat) :
    (s.withFetchWord n w).regs = s.regs := rfl
@[simp] theorem withFetchWord_dmem (s : State) (n w : Nat) :
    (s.withFetchWord n w).dmem = s.dmem := rfl
@[simp] theorem withFetchWord_pc (s : State) (n w : Nat) :
    (s.withFetchWord n w).pc = s.pc := rfl
@[simp] theorem withFetchWord_fd (s : State) (n w : Nat) :
    (s.withFetchWord n w).fd = s.fd := rfl
@[simp] theorem withFetchWord_de (s : State) (n w : Nat) :
    (s.withFetchWord n w).de = s.de := rfl
@[simp] theorem withFetchWord_em (s : State) (n w : Nat) :
    (s.withFetchWord n w).em = s.em := rfl
@[simp] theorem withFetchWord_mw (s : State) (n w : Nat) :
    (s.withFetchWord n w).mw = s.mw := rfl
@[simp] theorem withFetchWord_run (s : State) (n w : Nat) :
    (s.withFetchWord n w).run = .running := rfl
@[simp] theorem withFetchWord_cycles (s : State) (n w : Nat) :
    (s.withFetchWord n w).cycles = s.cycles := rfl
@[simp] theorem withFetchWord_stalls (s : State) (n w : Nat) :
    (s.withFetchWord n w).stalls = s.stalls := rfl
@[simp] theorem withFetchWord_program (s : State) (n w : Nat) :
    (s.withFetchWord n w).program = placeWord s.program (s.pc.toNat / 4) (BitVec.ofNat 32 w) := rfl
@[simp] theorem withFetchWord_cfg (s : State) (n w : Nat) :
    (s.withFetchWord n w).cfg = s.cfg := rfl

@[simp] theorem afterReset_regs (c : Config) (p : List Word) (d : Memory) :
    (State.afterReset c p d).regs = Vector.replicate 32 0 := rfl
@[simp] theorem afterReset_dmem (c : Config) (p : List Word) (d : Memory) :
    (State.afterReset c p d).dmem = d := rfl
@[simp] theorem afterReset_pc (c : Config) (p : List Word) (d : Memory) :
    (State.afterReset c p d).pc = 0 := rfl
@[simp] theorem afterReset_fd (c : Config) (p : List Word) (d : Memory) :
    (State.afterReset c p d).fd = .noop := rfl
@[simp] theorem afterReset_de (c : Config) (p : List Word) (d : Memory) :
    (State.afterReset c p d).de = .noop := rfl
@[simp] theorem afterReset_em (c : Config) (p : List Word) (d : Memory) :
    (State.afterReset c p d).em = .noop := rfl
@[simp] theorem afterReset_mw (c : Config) (p : List Word) (d : Memory) :
    (State.afterReset c p d).mw = .noop := rfl
@[simp] theorem afterReset_run (c : Config) (p : List Word) (d : Memory) :
    (State.afterReset c p d).run = .running := rfl
@[simp] theorem afterReset_cycles (c : Config) (p : List Word) (d : Memory) :
    (State.afterReset c p d).cycles = 0 := rfl
@[simp] theorem afterReset_stalls (c : Config) (p : List Word) (d : Memory) :
    (State.afterReset c p d).stalls = 0 := rfl
@[simp] theorem afterReset_program (c : Config) (p : List Word) (d : Memory) :
    (State.afterReset c p d).program = p := rfl
@[simp] theorem afterReset_cfg (c : Config) (p : List Word) (d : Memory) :
    (State.afterReset c p d).cfg = c := rfl

@[simp] theorem loaded_regs (c : Config) (p d : List Word) :
    (State.loaded c p d).regs = Vector.replicate 32 0 := rfl
@[simp] theorem loaded_dmem (c : Config) (p d : List Word) :
    (State.loaded c p d).dmem = placeData c.byteOrder 0 d [] := rfl
@[simp] theorem loaded_pc (c : Config) (p d : List Word) :
    (State.loaded c p d).pc = 0 := rfl
@[simp] theorem loaded_fd (c : Config) (p d : List Word) :
    (State.loaded c p d).fd = .noop := rfl
@[simp] theorem loaded_de (c : Config) (p d : List Word) :
    (State.loaded c p d).de = .noop := rfl
@[simp] theorem loaded_em (c : Config) (p d : List Word) :
    (State.loaded c p d).em = .noop := rfl
@[simp] theorem loaded_mw (c : Config) (p d : List Word) :
    (State.loaded c p d).mw = .noop := rfl
@[simp] theorem loaded_run (c : Config) (p d : List Word) :
    (State.loaded c p d).run = .running := rfl
@[simp] theorem loaded_cycles (c : Config) (p d : List Word) :
    (State.loaded c p d).cycles = 0 := rfl
@[simp] theorem loaded_stalls (c : Config) (p d : List Word) :
    (State.loaded c p d).stalls = 0 := rfl
@[simp] theorem loaded_program (c : Config) (p d : List Word) :
    (State.loaded c p d).program = p := rfl
@[simp] theorem loaded_cfg (c : Config) (p d : List Word) :
    (State.loaded c p d).cfg = c := rfl

@[simp] theorem retired_regs (s : State) (x : Regs) (d : Memory) (n : Nat) :
    (Safety.retired s x d n).regs = x := rfl
@[simp] theorem retired_dmem (s : State) (x : Regs) (d : Memory) (n : Nat) :
    (Safety.retired s x d n).dmem = d := rfl
@[simp] theorem retired_pc (s : State) (x : Regs) (d : Memory) (n : Nat) :
    (Safety.retired s x d n).pc = s.pc + BitVec.ofNat 32 (20 - 4 * n) := rfl
@[simp] theorem retired_fd (s : State) (x : Regs) (d : Memory) (n : Nat) :
    (Safety.retired s x d n).fd = .noop := rfl
@[simp] theorem retired_de (s : State) (x : Regs) (d : Memory) (n : Nat) :
    (Safety.retired s x d n).de = decodeStage s.cfg .noop x := rfl
@[simp] theorem retired_em (s : State) (x : Regs) (d : Memory) (n : Nat) :
    (Safety.retired s x d n).em = .noop := rfl
@[simp] theorem retired_mw (s : State) (x : Regs) (d : Memory) (n : Nat) :
    (Safety.retired s x d n).mw = .noop := rfl
@[simp] theorem retired_run (s : State) (x : Regs) (d : Memory) (n : Nat) :
    (Safety.retired s x d n).run = s.run := rfl
@[simp] theorem retired_cycles (s : State) (x : Regs) (d : Memory) (n : Nat) :
    (Safety.retired s x d n).cycles = s.cycles + 5 := rfl
@[simp] theorem retired_stalls (s : State) (x : Regs) (d : Memory) (n : Nat) :
    (Safety.retired s x d n).stalls = s.stalls + n := rfl
@[simp] theorem retired_program (s : State) (x : Regs) (d : Memory) (n : Nat) :
    (Safety.retired s x d n).program = s.program := rfl
@[simp] theorem retired_cfg (s : State) (x : Regs) (d : Memory) (n : Nat) :
    (Safety.retired s x d n).cfg = s.cfg := rfl

@[simp] theorem FDLatch_noop_instr : FDLatch.noop.instr = .noop := rfl
@[simp] theorem DELatch_noop_instr : DELatch.noop.instr = .noop := rfl
@[simp] theorem DELatch_noop_readA : DELatch.noop.readA = 0 := rfl
@[simp] theorem DELatch_noop_readB : DELatch.noop.readB = 0 := rfl
@[simp] theorem EMLatch_noop_instr : EMLatch.noop.instr = .noop := rfl
@[simp] theorem EMLatch_noop_alu : EMLatch.noop.alu = 0 := rfl
@[simp] theorem EMLatch_noop_wdata : EMLatch.noop.wdata = 0 := rfl
@[simp] theorem MWLatch_noop_instr : MWLatch.noop.instr = .noop := rfl
@[simp] theorem MWLatch_noop_alu : MWLatch.noop.alu = 0 := rfl
@[simp] theorem MWLatch_noop_mdata : MWLatch.noop.mdata = 0 := rfl

@[simp] theorem decodeStage_instr (c : Config) (i : Instr) (x : Regs) :
    (decodeStage c i x).instr = i := rfl
@[simp] theorem decodeStage_readA (c : Config) (i : Instr) (x : Regs) :
    (decodeStage c i x).readA = readReg c x i.rs := rfl
@[simp] theorem decodeStage_readB (c : Config) (i : Instr) (x : Regs) :
    (decodeStage c i x).readB = readReg c x i.rt := rfl

end Sys2Proof.Machine
end

