-- ==== Sys2Proof/Laws/Encoding.lean ====
section
/-! SUPPORT. The fields of each format's word (30_encoding R52, R53). -/

namespace Sys2Proof

@[simp] theorem opcodeOf_encodeR (rs rt rd sh : Field5) (fn : Field6) :
    opcodeOf (encodeR rs rt rd sh fn) = 0 := by
  refine BitVec.eq_of_getLsbD_eq fun i hi => ?_
  simp only [opcodeOf, encodeR, BitVec.getLsbD_append, BitVec.getLsbD_extractLsb']
  interval_cases i <;> simp

@[simp] theorem rsOf_encodeR (rs rt rd sh : Field5) (fn : Field6) :
    rsOf (encodeR rs rt rd sh fn) = rs := by
  refine BitVec.eq_of_getLsbD_eq fun i hi => ?_
  simp only [rsOf, encodeR, BitVec.getLsbD_append, BitVec.getLsbD_extractLsb']
  interval_cases i <;> simp

@[simp] theorem rtOf_encodeR (rs rt rd sh : Field5) (fn : Field6) :
    rtOf (encodeR rs rt rd sh fn) = rt := by
  refine BitVec.eq_of_getLsbD_eq fun i hi => ?_
  simp only [rtOf, encodeR, BitVec.getLsbD_append, BitVec.getLsbD_extractLsb']
  interval_cases i <;> simp

@[simp] theorem rdOf_encodeR (rs rt rd sh : Field5) (fn : Field6) :
    rdOf (encodeR rs rt rd sh fn) = rd := by
  refine BitVec.eq_of_getLsbD_eq fun i hi => ?_
  simp only [rdOf, encodeR, BitVec.getLsbD_append, BitVec.getLsbD_extractLsb']
  interval_cases i <;> simp

@[simp] theorem shamtOf_encodeR (rs rt rd sh : Field5) (fn : Field6) :
    shamtOf (encodeR rs rt rd sh fn) = sh := by
  refine BitVec.eq_of_getLsbD_eq fun i hi => ?_
  simp only [shamtOf, encodeR, BitVec.getLsbD_append, BitVec.getLsbD_extractLsb']
  interval_cases i <;> simp

@[simp] theorem funcOf_encodeR (rs rt rd sh : Field5) (fn : Field6) :
    funcOf (encodeR rs rt rd sh fn) = fn := by
  refine BitVec.eq_of_getLsbD_eq fun i hi => ?_
  simp only [funcOf, encodeR, BitVec.getLsbD_append, BitVec.getLsbD_extractLsb']
  interval_cases i <;> simp

@[simp] theorem opcodeOf_encodeX (fn : Field6) :
    opcodeOf (encodeX fn) = 0 := by
  refine BitVec.eq_of_getLsbD_eq fun i hi => ?_
  simp only [opcodeOf, encodeX, BitVec.getLsbD_append, BitVec.getLsbD_extractLsb']
  interval_cases i <;> simp

@[simp] theorem funcOf_encodeX (fn : Field6) :
    funcOf (encodeX fn) = fn := by
  refine BitVec.eq_of_getLsbD_eq fun i hi => ?_
  simp only [funcOf, encodeX, BitVec.getLsbD_append, BitVec.getLsbD_extractLsb']
  interval_cases i <;> simp

@[simp] theorem opcodeOf_encodeI (op : Field6) (rs rt : Field5) (imm : Imm16) :
    opcodeOf (encodeI op rs rt imm) = op := by
  refine BitVec.eq_of_getLsbD_eq fun i hi => ?_
  simp only [opcodeOf, encodeI, BitVec.getLsbD_append, BitVec.getLsbD_extractLsb']
  interval_cases i <;> simp

@[simp] theorem rsOf_encodeI (op : Field6) (rs rt : Field5) (imm : Imm16) :
    rsOf (encodeI op rs rt imm) = rs := by
  refine BitVec.eq_of_getLsbD_eq fun i hi => ?_
  simp only [rsOf, encodeI, BitVec.getLsbD_append, BitVec.getLsbD_extractLsb']
  interval_cases i <;> simp

@[simp] theorem rtOf_encodeI (op : Field6) (rs rt : Field5) (imm : Imm16) :
    rtOf (encodeI op rs rt imm) = rt := by
  refine BitVec.eq_of_getLsbD_eq fun i hi => ?_
  simp only [rtOf, encodeI, BitVec.getLsbD_append, BitVec.getLsbD_extractLsb']
  interval_cases i <;> simp

@[simp] theorem imm16Of_encodeI (op : Field6) (rs rt : Field5) (imm : Imm16) :
    imm16Of (encodeI op rs rt imm) = imm := by
  refine BitVec.eq_of_getLsbD_eq fun i hi => ?_
  simp only [imm16Of, encodeI, BitVec.getLsbD_append, BitVec.getLsbD_extractLsb']
  interval_cases i <;> simp

/-- An X-type word (R54). -/
theorem decode_x (cfg : Config) {w : Word} (h : opcodeOf w = 0) (h1 : funcOf w = 0 ∨ funcOf w = 1) :
    decode cfg w = decodeX cfg w := by simp only [decode, classify, h, h1, and_self, if_true]

/-- An R-type word (R54). -/
theorem decode_r (cfg : Config) {w : Word} (h : opcodeOf w = 0)
    (h1 : ¬ (funcOf w = 0 ∨ funcOf w = 1)) : decode cfg w = decodeR cfg w := by
  simp only [decode, classify, h, h1, and_false, if_false, if_true]

/-- An I-type word (R54). -/
theorem decode_i (cfg : Config) {w : Word} (h : opcodeOf w ≠ 0) : decode cfg w = decodeI cfg w := by
  simp only [decode, classify, h, false_and, if_false]

theorem decodeX_type (cfg : Config) (w : Word) : (decodeX cfg w).type = .x := by
  unfold decodeX; split <;> rfl

theorem decodeR_type (cfg : Config) (w : Word) : (decodeR cfg w).type = .r := by
  unfold decodeR; repeat' split
  all_goals rfl

theorem decodeI_type (cfg : Config) (w : Word) : (decodeI cfg w).type = .i := by
  unfold decodeI; repeat' split
  all_goals rfl

end Sys2Proof
end

