-- ==== Sys2Proof/Laws/Memory.lean ====
section
/-! SUPPORT. Data memory: reads after writes, the canonical form and the extent kept by every
operation, and the word view in either byte order. -/

namespace Sys2Proof.Machine

@[simp] theorem readByte_nil (a : Nat) : Memory.readByte [] a = 0#8 := rfl

/-- Below every listed offset a byte reads 0. -/
theorem readByte_below {m : Memory} {a : Nat} (h : ∀ c ∈ m, a < c.1) : Memory.readByte m a = 0#8 := by
  induction m with
  | nil => rfl
  | cons c rest ih =>
    have hc : a < c.1 := h c (by simp)
    simp only [Memory.readByte, if_neg (Nat.ne_of_gt hc)]
    exact ih fun d hd => h d (by simp [hd])

theorem wf_tail {c : Host.Cell} {m : Memory} (h : Memory.wf (c :: m)) : Memory.wf m :=
  ⟨(List.pairwise_cons.mp h.1).2, fun d hd => h.2 d (by simp [hd])⟩

theorem readByte_writeByte_same {m : Memory} (h : Memory.wf m) (a : Nat) (b : Byte) :
    Memory.readByte (Memory.writeByte m a b) a = b := by
  induction m with
  | nil => by_cases hb : b = 0#8 <;> simp [Memory.writeByte, Memory.readByte, hb]
  | cons c rest ih =>
    have rising := (List.pairwise_cons.mp h.1).1
    simp only [Memory.writeByte]
    by_cases hlt : a < c.1
    · by_cases hb : b = 0#8
      · simp only [hlt, hb, if_true]
        exact readByte_below (by
          intro d hd
          rcases List.mem_cons.mp hd with rfl | hd
          · exact hlt
          · exact Nat.lt_trans hlt (rising d hd))
      · simp [hlt, hb, Memory.readByte]
    · by_cases heq : a = c.1
      · by_cases hb : b = 0#8
        · simp only [heq, hb, if_true, if_false, Nat.lt_irrefl]
          exact readByte_below fun d hd => rising d hd
        · simp [heq, hb, Memory.readByte]
      · simp only [hlt, heq, if_false, Memory.readByte, if_neg (Ne.symm heq)]
        exact ih (wf_tail h)

theorem readByte_writeByte_other (m : Memory) {a x : Nat} (b : Byte) (h : x ≠ a) :
    Memory.readByte (Memory.writeByte m a b) x = Memory.readByte m x := by
  induction m with
  | nil => by_cases hb : b = 0#8 <;> simp [Memory.writeByte, Memory.readByte, hb, h.symm]
  | cons c rest ih =>
    simp only [Memory.writeByte]
    by_cases hlt : a < c.1
    · by_cases hb : b = 0#8 <;> simp [hlt, hb, Memory.readByte, h.symm]
    · by_cases heq : a = c.1
      · subst heq
        by_cases hb : b = 0#8 <;> simp [hb, Memory.readByte, h.symm]
      · simp only [hlt, heq, if_false, Memory.readByte, ih]

theorem mem_writeByte {m : Memory} {a : Nat} {b : Byte} {c : Host.Cell}
    (h : c ∈ Memory.writeByte m a b) : (c = (a, b) ∧ b ≠ 0#8) ∨ c ∈ m := by
  induction m with
  | nil =>
    by_cases hb : b = 0#8
    · simp [Memory.writeByte, hb] at h
    · simp only [Memory.writeByte, if_neg hb, List.mem_singleton] at h
      exact .inl ⟨h, hb⟩
  | cons d rest ih =>
    simp only [Memory.writeByte] at h
    split at h
    · split at h
      · exact .inr h
      · rename_i hb
        rcases List.mem_cons.mp h with h | h
        · exact .inl ⟨h, hb⟩
        · exact .inr h
    · split at h
      · split at h
        · exact .inr (by simp [h])
        · rename_i hb
          rcases List.mem_cons.mp h with h | h
          · exact .inl ⟨h, hb⟩
          · exact .inr (by simp [h])
      · rcases List.mem_cons.mp h with h | h
        · exact .inr (by simp [h])
        · rcases ih h with h | h
          · exact .inl h
          · exact .inr (by simp [h])

theorem writeByte_wf {m : Memory} (h : Memory.wf m) (a : Nat) (b : Byte) :
    Memory.wf (Memory.writeByte m a b) := by
  refine ⟨?_, fun c hc => ?_⟩
  · induction m with
    | nil => by_cases hb : b = 0#8 <;> simp [Memory.writeByte, hb]
    | cons d rest ih =>
      have rising := (List.pairwise_cons.mp h.1).1
      have tail := (List.pairwise_cons.mp h.1).2
      simp only [Memory.writeByte]
      by_cases hlt : a < d.1
      · by_cases hb : b = 0#8
        · simpa [hlt, hb] using h.1
        · simp only [hlt, hb, if_true, if_false]
          refine List.pairwise_cons.mpr ⟨fun c hc => ?_, h.1⟩
          rcases List.mem_cons.mp hc with rfl | hc
          · exact hlt
          · exact Nat.lt_trans hlt (rising c hc)
      · by_cases heq : a = d.1
        · by_cases hb : b = 0#8
          · simpa [hlt, heq, hb] using tail
          · simp only [heq, hb, if_true, if_false, Nat.lt_irrefl]
            exact List.pairwise_cons.mpr ⟨fun c hc => rising c hc, tail⟩
        · simp only [hlt, heq, if_false]
          refine List.pairwise_cons.mpr ⟨fun c hc => ?_, ih (wf_tail h)⟩
          rcases mem_writeByte hc with ⟨rfl, -⟩ | hc
          · exact Nat.lt_of_le_of_ne (Nat.le_of_not_lt hlt) (Ne.symm heq)
          · exact rising c hc
  · rcases mem_writeByte hc with ⟨rfl, hb⟩ | hc
    · exact hb
    · exact h.2 c hc

theorem writeByte_inExtent {m : Memory} {words a : Nat} (h : Memory.inExtent words m)
    (ha : a < 4 * words) (b : Byte) : Memory.inExtent words (Memory.writeByte m a b) := by
  intro c hc
  rcases mem_writeByte hc with ⟨rfl, -⟩ | hc
  · exact ha
  · exact h c hc

theorem lane_lt (order : ByteOrder) (k : Nat) (hk : k < 4) : lane order k < 4 := by
  cases order <;> simp only [lane] <;> omega

theorem lane_inj (order : ByteOrder) {j k : Nat} (hj : j < 4) (hk : k < 4)
    (h : lane order j = lane order k) : j = k := by
  cases order <;> simp only [lane] at h <;> omega

/-- A word is its four bytes. -/
theorem byteOf_append (v : Word) :
    (byteOf v 3 ++ byteOf v 2 ++ byteOf v 1 ++ byteOf v 0 : BitVec 32) = v := by
  apply BitVec.eq_of_getLsbD_eq
  intro i hi
  simp only [byteOf, BitVec.getLsbD_append, BitVec.getLsbD_extractLsb']
  by_cases h0 : i < 8
  · simp [h0]
  · by_cases h1 : i - 8 < 8
    · have : 8 + (i - 8) = i := by omega
      simp [h0, h1, this]
    · by_cases h2 : i - 8 - 8 < 8
      · have : 16 + (i - 8 - 8) = i := by omega
        simp [h0, h1, h2, this]
      · have h3 : i - 8 - 8 - 8 < 8 := by omega
        have : 24 + (i - 8 - 8 - 8) = i := by omega
        simp [h0, h1, h2, h3, this]

theorem writeWord_wf {m : Memory} (h : Memory.wf m) (order : ByteOrder) (off : Nat) (v : Word) :
    Memory.wf (Memory.writeWord order m off v) :=
  writeByte_wf (writeByte_wf (writeByte_wf (writeByte_wf h _ _) _ _) _ _) _ _

theorem writeWord_inExtent {m : Memory} {words off : Nat} (h : Memory.inExtent words m)
    (hoff : off + 3 < 4 * words) (order : ByteOrder) (v : Word) :
    Memory.inExtent words (Memory.writeWord order m off v) := by
  have l0 := lane_lt order 0 (by omega)
  have l1 := lane_lt order 1 (by omega)
  have l2 := lane_lt order 2 (by omega)
  have l3 := lane_lt order 3 (by omega)
  exact writeByte_inExtent (writeByte_inExtent (writeByte_inExtent (writeByte_inExtent h
    (by omega) _) (by omega) _) (by omega) _) (by omega) _

/-- A word write changes no byte outside its four. -/
theorem readByte_writeWord_outside (order : ByteOrder) (m : Memory) {off a : Nat} (v : Word)
    (h : a < off ∨ off + 4 ≤ a) :
    Memory.readByte (Memory.writeWord order m off v) a = Memory.readByte m a := by
  have l0 := lane_lt order 0 (by omega)
  have l1 := lane_lt order 1 (by omega)
  have l2 := lane_lt order 2 (by omega)
  have l3 := lane_lt order 3 (by omega)
  simp only [Memory.writeWord]
  rw [readByte_writeByte_other _ _ (by omega), readByte_writeByte_other _ _ (by omega),
    readByte_writeByte_other _ _ (by omega), readByte_writeByte_other _ _ (by omega)]

/-- The word just written is the word read, in either byte order (20_memory R42). -/
theorem readWord_writeWord_same {m : Memory} (h : Memory.wf m) (order : ByteOrder) (off : Nat)
    (v : Word) : Memory.readWord order (Memory.writeWord order m off v) off = v := by
  have w0 := writeByte_wf h (off + lane order 0) (byteOf v 0)
  have w1 := writeByte_wf w0 (off + lane order 1) (byteOf v 1)
  have w2 := writeByte_wf w1 (off + lane order 2) (byteOf v 2)
  have ne : ∀ {j k : Nat}, j < 4 → k < 4 → j ≠ k → off + lane order j ≠ off + lane order k :=
    fun hj hk hjk e => hjk (lane_inj order hj hk (by omega))
  simp only [Memory.readWord, Memory.writeWord]
  rw [readByte_writeByte_same w2,
    readByte_writeByte_other _ _ (ne (j := 2) (k := 3) (by omega) (by omega) (by omega)),
    readByte_writeByte_same w1,
    readByte_writeByte_other _ _ (ne (j := 1) (k := 3) (by omega) (by omega) (by omega)),
    readByte_writeByte_other _ _ (ne (j := 1) (k := 2) (by omega) (by omega) (by omega)),
    readByte_writeByte_same w0,
    readByte_writeByte_other _ _ (ne (j := 0) (k := 3) (by omega) (by omega) (by omega)),
    readByte_writeByte_other _ _ (ne (j := 0) (k := 2) (by omega) (by omega) (by omega)),
    readByte_writeByte_other _ _ (ne (j := 0) (k := 1) (by omega) (by omega) (by omega)),
    readByte_writeByte_same h]
  exact byteOf_append v

/-- A word write leaves every disjoint word alone. -/
theorem readWord_writeWord_other (order : ByteOrder) (m : Memory) {off x : Nat} (v : Word)
    (h : x + 4 ≤ off ∨ off + 4 ≤ x) :
    Memory.readWord order (Memory.writeWord order m off v) x = Memory.readWord order m x := by
  have l0 := lane_lt order 0 (by omega)
  have l1 := lane_lt order 1 (by omega)
  have l2 := lane_lt order 2 (by omega)
  have l3 := lane_lt order 3 (by omega)
  simp only [Memory.readWord]
  rw [readByte_writeWord_outside order m v (by omega), readByte_writeWord_outside order m v (by omega),
    readByte_writeWord_outside order m v (by omega), readByte_writeWord_outside order m v (by omega)]

/-- Out of range: no word is reached (R39, R40). -/
theorem dataWordAt_outOfRange {cfg : Config} {ea : Word} (h : ¬ inRange cfg ea) :
    dataWordAt cfg ea = .ok none := by simp only [dataWordAt, h, not_false_iff, if_true]

/-- In range and aligned: the word at the offset (R39, R40). -/
theorem dataWordAt_aligned {cfg : Config} {ea : Word} (hi : inRange cfg ea) (ha : aligned cfg ea) :
    dataWordAt cfg ea = .ok (some (dataOffset cfg ea)) := by
  simp only [dataWordAt, hi, not_true, if_false]
  exact if_pos ha

/-- In range and misaligned: the policy decides (R41). -/
theorem dataWordAt_misaligned {cfg : Config} {ea : Word} (hi : inRange cfg ea)
    (ha : ¬ aligned cfg ea) : dataWordAt cfg ea = match cfg.misalignedPolicy with
      | .fault => .error .misalignedData
      | .truncate => .ok (some (4 * (dataOffset cfg ea / 4)))
      | .outOfRange => .ok none := by
  cases hp : cfg.misalignedPolicy <;> simp only [dataWordAt, hi, not_true, if_false, ha, hp]

/-- An access reaches a whole word of the extent, or none (20_memory R38, R41). -/
theorem dataWordAt_some {cfg : Config} {ea : Word} {off : Nat}
    (h : dataWordAt cfg ea = .ok (some off)) : off % 4 = 0 ∧ off + 3 < 4 * cfg.dmemWords := by
  simp only [dataWordAt] at h
  split at h
  · cases h
  · rename_i hin
    split at h
    · rename_i hal
      cases h
      simp only [inRange, aligned] at hin hal
      omega
    · split at h <;> cases h
      simp only [inRange] at hin
      omega

/-- A data access faults only as `MisalignedData`. -/
theorem dataWordAt_error {cfg : Config} {ea : Word} {r : Fault} (h : dataWordAt cfg ea = .error r) :
    r = .misalignedData ∧ inRange cfg ea ∧ ¬ aligned cfg ea ∧ cfg.misalignedPolicy = .fault := by
  simp only [dataWordAt] at h
  split at h
  · cases h
  · rename_i hin
    split at h
    · cases h
    · rename_i hal
      split at h <;> cases h
      exact ⟨rfl, by simpa using hin, hal, ‹_›⟩

theorem memWrite_wf {cfg : Config} {m m1 : Memory} {ea v : Word} (h : Memory.wf m)
    (hw : memWrite cfg m ea v = .ok m1) : Memory.wf m1 := by
  simp only [memWrite] at hw
  split at hw <;> cases hw
  · exact h
  · exact writeWord_wf h _ _ _

theorem memWrite_inExtent {cfg : Config} {m m1 : Memory} {ea v : Word}
    (h : Memory.inExtent cfg.dmemWords m) (hw : memWrite cfg m ea v = .ok m1) :
    Memory.inExtent cfg.dmemWords m1 := by
  simp only [memWrite] at hw
  split at hw <;> cases hw
  · exact h
  · exact writeWord_inExtent h (dataWordAt_some ‹_›).2 _ _

theorem placeData_wf (order : ByteOrder) (data : List Word) :
    ∀ (k : Nat) {m : Memory}, Memory.wf m → Memory.wf (placeData order k data m) := by
  induction data with
  | nil => exact fun _ _ h => h
  | cons v rest ih => exact fun k _ h => ih (k + 1) (writeWord_wf h _ _ _)

theorem placeData_inExtent (order : ByteOrder) (data : List Word) :
    ∀ (k : Nat) {m : Memory} {words : Nat}, k + data.length ≤ words → Memory.inExtent words m →
      Memory.inExtent words (placeData order k data m) := by
  induction data with
  | nil => exact fun _ _ _ _ h => h
  | cons v rest ih =>
    intro k m words hk h
    simp only [List.length_cons] at hk
    exact ih (k + 1) (by omega) (writeWord_inExtent h (by omega) _ _)

theorem reset_memory_wf : Memory.wf State.reset.dmem := by decide

end Sys2Proof.Machine
end

