-- ==== Sys2Proof/Laws/PerInstr.lean ====
section
/-! SUPPORT. The record invariants of 10_state R23, one lemma for each constructor of Instr. -/

namespace Sys2Proof.Laws.RecordShape

/-- Unused fields hold a canonical zero (R23). -/
def Statement (i : Instr) : Prop := ∀ cfg : Config,
  (i.type = .r → (i.record cfg).imm = 0 ∧ (i.record cfg).opcode = 0) ∧
  (i.type = .i → (i.record cfg).rd = 0 ∧ (i.record cfg).shamt = 0 ∧ (i.record cfg).func = 0) ∧
  (i.type = .x → (i.record cfg).rs = 0 ∧ (i.record cfg).rt = 0 ∧ (i.record cfg).rd = 0 ∧
    (i.record cfg).shamt = 0 ∧ (i.record cfg).imm = 0 ∧ (i.record cfg).opcode = 0)

theorem noop : Statement (.noop) := by
  intro cfg
  simp [Instr.record, Instr.type, Instr.rs, Instr.rt, Instr.rd, Instr.shamt, Instr.imm, Instr.func, Instr.opcode]

theorem halt : Statement (.halt) := by
  intro cfg
  simp [Instr.record, Instr.type, Instr.rs, Instr.rt, Instr.rd, Instr.shamt, Instr.imm, Instr.func, Instr.opcode]

theorem add (rs rt rd shamt : Field5) : Statement (.add rs rt rd shamt) := by
  intro cfg
  simp [Instr.record, Instr.type, Instr.rs, Instr.rt, Instr.rd, Instr.shamt, Instr.imm, Instr.func, Instr.opcode]

theorem sub (rs rt rd shamt : Field5) : Statement (.sub rs rt rd shamt) := by
  intro cfg
  simp [Instr.record, Instr.type, Instr.rs, Instr.rt, Instr.rd, Instr.shamt, Instr.imm, Instr.func, Instr.opcode]

theorem sll (rs rt rd shamt : Field5) : Statement (.sll rs rt rd shamt) := by
  intro cfg
  simp [Instr.record, Instr.type, Instr.rs, Instr.rt, Instr.rd, Instr.shamt, Instr.imm, Instr.func, Instr.opcode]

theorem unknownR (rs rt rd shamt : Field5) (func : Field6) : Statement (.unknownR rs rt rd shamt func) := by
  intro cfg
  simp [Instr.record, Instr.type, Instr.rs, Instr.rt, Instr.rd, Instr.shamt, Instr.imm, Instr.func, Instr.opcode]

theorem lw (rs rt : Field5) (imm16 : Imm16) : Statement (.lw rs rt imm16) := by
  intro cfg
  simp [Instr.record, Instr.type, Instr.rs, Instr.rt, Instr.rd, Instr.shamt, Instr.imm, Instr.func, Instr.opcode]

theorem sw (rs rt : Field5) (imm16 : Imm16) : Statement (.sw rs rt imm16) := by
  intro cfg
  simp [Instr.record, Instr.type, Instr.rs, Instr.rt, Instr.rd, Instr.shamt, Instr.imm, Instr.func, Instr.opcode]

theorem andi (rs rt : Field5) (imm16 : Imm16) : Statement (.andi rs rt imm16) := by
  intro cfg
  simp [Instr.record, Instr.type, Instr.rs, Instr.rt, Instr.rd, Instr.shamt, Instr.imm, Instr.func, Instr.opcode]

theorem ori (rs rt : Field5) (imm16 : Imm16) : Statement (.ori rs rt imm16) := by
  intro cfg
  simp [Instr.record, Instr.type, Instr.rs, Instr.rt, Instr.rd, Instr.shamt, Instr.imm, Instr.func, Instr.opcode]

theorem bne (rs rt : Field5) (imm16 : Imm16) : Statement (.bne rs rt imm16) := by
  intro cfg
  simp [Instr.record, Instr.type, Instr.rs, Instr.rt, Instr.rd, Instr.shamt, Instr.imm, Instr.func, Instr.opcode]

theorem unknownI (opcode : Field6) (rs rt : Field5) (imm16 : Imm16) : Statement (.unknownI opcode rs rt imm16) := by
  intro cfg
  simp [Instr.record, Instr.type, Instr.rs, Instr.rt, Instr.rd, Instr.shamt, Instr.imm, Instr.func, Instr.opcode]

end Sys2Proof.Laws.RecordShape
end

