-- ==== Sys2Proof/Laws/Registers.lean ====
section
/-! SUPPORT. Registers: reads after writes, and the write-back register. -/

namespace Sys2Proof.Machine

/-- Every register after a write: the written one holds the value, unless it is a hard-wired
register 0, and every other one is unchanged (R17). -/
theorem getElem_writeReg (cfg : Config) (x : Regs) (r q : Field5) (v : Word) :
    (writeReg cfg x r v)[q.toNat] =
      if ¬ (cfg.r0Hardwired = true ∧ r = 0) ∧ q = r then v else x[q.toNat] := by
  by_cases h0 : cfg.r0Hardwired = true ∧ r = 0
  · have hx : writeReg cfg x r v = x := if_pos h0
    rw [if_neg fun h => h.1 h0, hx]
  · have hx : writeReg cfg x r v = x.set r.toNat v := if_neg h0
    rw [hx, Vector.getElem_set]
    by_cases hq : q = r
    · subst hq
      rw [if_pos rfl, if_pos ⟨h0, rfl⟩]
    · have hn : r.toNat ≠ q.toNat := fun e => hq (BitVec.eq_of_toNat_eq e.symm)
      rw [if_neg hn, if_neg fun h => hq h.2]

theorem readReg_writeReg_other (cfg : Config) (x : Regs) {q r : Field5} (v : Word) (h : q ≠ r) :
    readReg cfg (writeReg cfg x r v) q = readReg cfg x q := by
  have hn : r.toNat ≠ q.toNat := fun e => h (BitVec.eq_of_toNat_eq e.symm)
  simp only [readReg, writeReg]
  split
  · rfl
  · split
    · rfl
    · exact Vector.getElem_set_ne _ _ hn

/-- An ordinary register, or any register but a hard-wired 0, reads what was written (R17). -/
theorem readReg_writeReg_same (cfg : Config) (x : Regs) {r : Field5} (v : Word)
    (h : ¬ (cfg.r0Hardwired = true ∧ r = 0)) : readReg cfg (writeReg cfg x r v) r = v := by
  simp only [readReg, writeReg, if_neg h]
  exact Vector.getElem_set_self _

/-- `wreg` never names a hard-wired register 0 (R73). -/
theorem wreg_some {cfg : Config} {i : Instr} {r : Field5} (h : wreg cfg i = some r) :
    destField i = some r ∧ ¬ (cfg.r0Hardwired = true ∧ r = 0) := by
  simp only [wreg] at h
  split at h
  · cases h
  · split at h
    · cases h
    · cases h
      exact ⟨‹_›, ‹_›⟩

theorem writeback_none {cfg : Config} {x : Regs} {mw : MWLatch} (h : wreg cfg mw.instr = none) :
    writeback cfg x mw = x := by simp [writeback, h]

theorem writeback_some {cfg : Config} {x : Regs} {mw : MWLatch} {r : Field5}
    (h : wreg cfg mw.instr = some r) : writeback cfg x mw = writeReg cfg x r (commitValue mw) := by
  simp [writeback, h]

/-- Every register after write-back (R70). -/
theorem getElem_writeback_other {cfg : Config} {x : Regs} {mw : MWLatch} {q : Field5}
    (h : wreg cfg mw.instr ≠ some q) : (writeback cfg x mw)[q.toNat] = x[q.toNat] := by
  cases hw : wreg cfg mw.instr with
  | none => rw [writeback_none hw]
  | some r =>
    rw [writeback_some hw, getElem_writeReg, if_neg]
    exact fun e => h (by rw [hw, e.2])

/-- The write-back register after write-back (R70). -/
theorem getElem_writeback_same {cfg : Config} {x : Regs} {mw : MWLatch} {q : Field5}
    (h : wreg cfg mw.instr = some q) : (writeback cfg x mw)[q.toNat] = commitValue mw := by
  rw [writeback_some h, getElem_writeReg, if_pos]
  exact ⟨(wreg_some h).2, rfl⟩

/-- Every register but the write-back register reads as before (R70). -/
theorem readReg_writeback_other {cfg : Config} {x : Regs} {mw : MWLatch} {q : Field5}
    (h : wreg cfg mw.instr ≠ some q) : readReg cfg (writeback cfg x mw) q = readReg cfg x q := by
  cases hw : wreg cfg mw.instr with
  | none => rw [writeback_none hw]
  | some r =>
    rw [writeback_some hw]
    exact readReg_writeReg_other cfg x _ fun e => h (by rw [hw, e])

/-- The write-back register reads the committed value (R70). -/
theorem readReg_writeback_same {cfg : Config} {x : Regs} {mw : MWLatch} {q : Field5}
    (h : wreg cfg mw.instr = some q) : readReg cfg (writeback cfg x mw) q = commitValue mw := by
  rw [writeback_some h]
  exact readReg_writeReg_same cfg x _ (wreg_some h).2

end Sys2Proof.Machine
end

