-- ==== Sys2Proof/Laws/Stages.lean ====
section
/-! SUPPORT. What each stage and one cycle can do, said once: the memory stage, the execute stage,
`cycle`, `exec` and `step`. -/

namespace Sys2Proof.Machine

/-- Everything the memory stage can answer (40_pipeline R84). -/
theorem memoryStage_cases (cfg : Config) (em : EMLatch) (m : Memory) :
    (∃ r, memoryStage cfg em m = .error r ∧ r = .misalignedData ∧
      (em.instr.name = .lw ∨ em.instr.name = .sw) ∧ inRange cfg em.alu ∧ ¬ aligned cfg em.alu ∧
      cfg.misalignedPolicy = .fault) ∨
    (∃ v, em.instr.name = .lw ∧ memRead cfg m em.alu = .ok v ∧
      memoryStage cfg em m = .ok (⟨em.instr, em.alu, v⟩, m)) ∨
    (∃ m1, em.instr.name = .sw ∧ memWrite cfg m em.alu em.wdata = .ok m1 ∧
      memoryStage cfg em m = .ok (⟨em.instr, em.alu, 0⟩, m1)) ∨
    (em.instr.name ≠ .lw ∧ em.instr.name ≠ .sw ∧
      memoryStage cfg em m = .ok (⟨em.instr, em.alu, 0⟩, m)) := by
  simp only [memoryStage]
  by_cases hl : em.instr.name = .lw
  · cases hr : memRead cfg m em.alu with
    | error r =>
      have : dataWordAt cfg em.alu = .error r := by
        simp only [memRead] at hr
        split at hr <;> cases hr
        assumption
      obtain ⟨rfl, hi, ha, hp⟩ := dataWordAt_error this
      exact .inl ⟨_, by simp [hl], rfl, .inl hl, hi, ha, hp⟩
    | ok v => exact .inr (.inl ⟨v, hl, rfl, by simp [hl]⟩)
  · by_cases hs : em.instr.name = .sw
    · cases hw : memWrite cfg m em.alu em.wdata with
      | error r =>
        have : dataWordAt cfg em.alu = .error r := by
          simp only [memWrite] at hw
          split at hw <;> cases hw
          assumption
        obtain ⟨rfl, hi, ha, hp⟩ := dataWordAt_error this
        exact .inl ⟨_, by simp [hs], rfl, .inr hs, hi, ha, hp⟩
      | ok m1 => exact .inr (.inr (.inl ⟨m1, hs, rfl, by simp [hs]⟩))
    · exact .inr (.inr (.inr ⟨hl, hs, by simp [hl, hs]⟩))

/-- The memory stage passes the instruction and its ALU result on. -/
theorem memoryStage_ok {cfg : Config} {em : EMLatch} {m m1 : Memory} {mw1 : MWLatch}
    (h : memoryStage cfg em m = .ok (mw1, m1)) :
    mw1.instr = em.instr ∧ mw1.alu = em.alu ∧ (em.instr.name ≠ .lw → mw1.mdata = 0) ∧
      (em.instr.name ≠ .sw → m1 = m) := by
  rcases memoryStage_cases cfg em m with ⟨r, e, -⟩ | ⟨v, hl, -, e⟩ | ⟨m2, hs, -, e⟩ | ⟨-, -, e⟩ <;>
    rw [e] at h <;> cases h
  · exact ⟨rfl, rfl, fun hn => absurd hl hn, fun _ => rfl⟩
  · exact ⟨rfl, rfl, fun _ => rfl, fun hn => absurd hs hn⟩
  · exact ⟨rfl, rfl, fun _ => rfl, fun _ => rfl⟩

/-- The memory stage keeps the canonical form. -/
theorem memoryStage_wf {cfg : Config} {em : EMLatch} {m m1 : Memory} {mw1 : MWLatch}
    (h : memoryStage cfg em m = .ok (mw1, m1)) (hm : Memory.wf m) : Memory.wf m1 := by
  rcases memoryStage_cases cfg em m with ⟨r, e, -⟩ | ⟨v, -, -, e⟩ | ⟨m2, -, hw, e⟩ | ⟨-, -, e⟩ <;>
    rw [e] at h <;> cases h
  · exact hm
  · exact memWrite_wf hm hw
  · exact hm

/-- The memory stage keeps the extent. -/
theorem memoryStage_inExtent {cfg : Config} {em : EMLatch} {m m1 : Memory} {mw1 : MWLatch}
    (h : memoryStage cfg em m = .ok (mw1, m1)) (hm : Memory.inExtent cfg.dmemWords m) :
    Memory.inExtent cfg.dmemWords m1 := by
  rcases memoryStage_cases cfg em m with ⟨r, e, -⟩ | ⟨v, -, -, e⟩ | ⟨m2, -, hw, e⟩ | ⟨-, -, e⟩ <;>
    rw [e] at h <;> cases h
  · exact hm
  · exact memWrite_inExtent hm hw
  · exact hm

/-- The execute stage latches the instruction, the result on some operands, and the write-data
slot (40_pipeline R83). -/
theorem execute_ok {cfg : Config} {de : DELatch} {em em1 : EMLatch} {mw : MWLatch}
    (h : execute cfg de em mw = .ok em1) :
    ∃ opA opB, operandA cfg de em mw = .ok opA ∧ operandB cfg de em mw = .ok opB ∧
      em1 = ⟨de.instr, aluResult de.instr opA opB, storeData cfg de opB⟩ := by
  simp only [execute] at h
  split at h <;> cases h
  exact ⟨_, _, ‹_›, ‹_›, rfl⟩

/-- A select is refused exactly for a used channel near-forwarded from a lw, under
`NEAR_LOAD_FORWARD = fault` (40_pipeline R81). -/
theorem resolvedSelect_error {cfg : Config} {used : Bool} {src : Field5} {em : EMLatch} {mw : MWLatch}
    {r : Fault} : resolvedSelect cfg used src em mw = .error r ↔
      r = .unresolvedLoadUse ∧ wreg cfg em.instr = some src ∧ used = true ∧ em.instr.name = .lw ∧
        cfg.nearLoadForward = .fault := by
  simp only [resolvedSelect, fwdSelect, farSelect]
  by_cases hw : wreg cfg em.instr = some src
  · by_cases hu : used = true ∧ em.instr.name = .lw
    · cases hp : cfg.nearLoadForward <;> simp [hw, hu, eq_comm]
    · simp only [hw, if_true, if_neg hu]
      exact ⟨fun e => (by cases e), fun ⟨_, _, a, b, _⟩ => absurd ⟨a, b⟩ hu⟩
  · by_cases hm : wreg cfg mw.instr = some src <;> simp [hw, hm]

/-- The execute stage refuses exactly in the case of R81 under `NEAR_LOAD_FORWARD = fault`. -/
theorem execute_error {s : State} {r : Fault} :
    execute s.cfg s.de s.em s.mw = .error r ↔ r = .unresolvedLoadUse ∧ Safety.UnresolvedNow s := by
  have a : ∀ e, operandA s.cfg s.de s.em s.mw = .error e ↔
      resolvedSelect s.cfg (usesA s.de.instr) s.de.instr.rs s.em s.mw = .error e := by
    intro e
    simp only [operandA]
    split <;> simp_all
  have b : ∀ e, operandB s.cfg s.de s.em s.mw = .error e ↔
      resolvedSelect s.cfg (usesB s.cfg s.de.instr) s.de.instr.rt s.em s.mw = .error e := by
    intro e
    simp only [operandB]
    split <;> simp_all
  have key : execute s.cfg s.de s.em s.mw = .error r ↔ operandA s.cfg s.de s.em s.mw = .error r ∨
      ((∃ v, operandA s.cfg s.de s.em s.mw = .ok v) ∧ operandB s.cfg s.de s.em s.mw = .error r) := by
    simp only [execute]
    split <;> simp_all
  rw [key, a, b, resolvedSelect_error, resolvedSelect_error]
  constructor
  · rintro (⟨rfl, h1, h2, h3, h4⟩ | ⟨-, rfl, h1, h2, h3, h4⟩)
    · exact ⟨rfl, ⟨h3, .inl ⟨h2, h1⟩⟩, h4⟩
    · exact ⟨rfl, ⟨h3, .inr ⟨h2, h1⟩⟩, h4⟩
  · rintro ⟨rfl, ⟨h3, h⟩, h4⟩
    by_cases hA : usesA s.de.instr = true ∧ wreg s.cfg s.em.instr = some s.de.instr.rs
    · exact .inl ⟨rfl, hA.2, hA.1, h3, h4⟩
    · rcases h with h | h
      · exact absurd h hA
      · refine .inr ⟨?_, rfl, h.2, h.1, h3, h4⟩
        cases ho : operandA s.cfg s.de s.em s.mw with
        | ok v => exact ⟨v, rfl⟩
        | error e =>
          have := resolvedSelect_error.mp ((a e).mp ho)
          exact absurd ⟨this.2.2.1, this.2.1⟩ hA

/-- The memory stage refuses exactly in the case of R41 under `MISALIGNED_POLICY = fault`. -/
theorem memoryStage_error {s : State} {r : Fault} :
    memoryStage s.cfg s.em s.dmem = .error r ↔ r = .misalignedData ∧ Safety.MisalignedNow s := by
  constructor
  · intro h
    rcases memoryStage_cases s.cfg s.em s.dmem with ⟨r', e, rfl, hn, hi, ha, hp⟩ | ⟨v, -, -, e⟩ |
      ⟨m1, -, -, e⟩ | ⟨-, -, e⟩ <;> rw [e] at h <;> cases h
    exact ⟨rfl, hn, hi, ha, hp⟩
  · rintro ⟨rfl, hn, hi, ha, hp⟩
    have hd : dataWordAt s.cfg s.em.alu = .error .misalignedData := by
      simp only [dataWordAt, hi, ha, hp, not_true, if_false]
    rcases hn with hn | hn <;> simp [memoryStage, memRead, memWrite, hn, hd]

/-- A cycle with no ModelFault commits the results of the execute and memory stages. -/
theorem cycle_clear {s : State} (h : Safety.Clear s) (inj : Instr) :
    ∃ em1 mw1 m1, memoryStage s.cfg s.em s.dmem = .ok (mw1, m1) ∧
      execute s.cfg s.de s.em s.mw = .ok em1 ∧ cycle inj s = commit inj s em1 mw1 m1 := by
  cases hm : memoryStage s.cfg s.em s.dmem with
  | error r => exact absurd (memoryStage_error.mp hm).2 h.1
  | ok p =>
    cases he : execute s.cfg s.de s.em s.mw with
    | error r => exact absurd (execute_error.mp he).2 h.2
    | ok em1 => exact ⟨em1, p.1, p.2, rfl, rfl, by simp [cycle, hm, he]⟩

/-- Everything one cycle can do (40_pipeline R69, R88). -/
theorem cycle_cases (inj : Instr) (s : State) :
    (∃ r, memoryStage s.cfg s.em s.dmem = .error r ∧ cycle inj s = enterFaulted r s) ∨
    (∃ r p, memoryStage s.cfg s.em s.dmem = .ok p ∧ execute s.cfg s.de s.em s.mw = .error r ∧
      cycle inj s = enterFaulted r s) ∨
    (∃ em1 mw1 m1, memoryStage s.cfg s.em s.dmem = .ok (mw1, m1) ∧
      execute s.cfg s.de s.em s.mw = .ok em1 ∧ cycle inj s = commit inj s em1 mw1 m1) := by
  simp only [cycle]
  cases hm : memoryStage s.cfg s.em s.dmem with
  | error r => exact .inl ⟨r, rfl, rfl⟩
  | ok p =>
    cases he : execute s.cfg s.de s.em s.mw with
    | error r => exact .inr (.inl ⟨r, p, rfl, rfl, rfl⟩)
    | ok em1 => exact .inr (.inr ⟨em1, p.1, p.2, rfl, rfl, rfl⟩)

/-- The hazard unit stalls exactly in the load-use case of R74. -/
theorem stalled_iff (s : State) : stalled s = true ↔ Safety.LoadUse s := by
  simp only [stalled, hazard, Safety.LoadUse]
  by_cases hl : s.de.instr.name = .lw
  · by_cases h0 : s.cfg.r0Hardwired = true ∧ s.de.instr.rt = 0
    · simp [hl, h0]
    · simp only [hl, h0, ne_eq, not_true, if_false, decide_eq_true_eq, true_and, not_false_iff]
  · simp [hl]

/-- Every arm of exec is the cycle that injects its instruction. -/
theorem exec_eq_cycle (i : Instr) (s : State) : exec i s = .next (cycle i s) := by
  cases i <;> rfl

theorem step_running {s : State} (h : s.run = .running) : step s = exec (inject s) s := by
  simp [step, h]

theorem step_halted {s : State} (h : s.run = .halted) : step s = .next s := by
  simp [step, h, haltedStep]

theorem step_faulted {s : State} {r : Fault} (h : s.run = .faulted r) : step s = .fault r := by
  simp [step, h, faultedStep]

/-- A step that answers a next state ran one cycle, or the machine was halted. -/
theorem step_next {s t : State} (h : step s = .next t) :
    (s.run = .running ∧ t = cycle (inject s) s) ∨ (s.run = .halted ∧ t = s) := by
  cases hr : s.run with
  | running =>
    rw [step_running hr, exec_eq_cycle] at h
    cases h
    exact .inl ⟨rfl, rfl⟩
  | halted =>
    rw [step_halted hr] at h
    cases h
    exact .inr ⟨rfl, rfl⟩
  | faulted r =>
    rw [step_faulted hr] at h
    cases h

/-- The cycle commits what its stages answer. -/
theorem cycle_eq_commit {inj : Instr} {s : State} {em1 : EMLatch} {mw1 : MWLatch} {m1 : Memory}
    (hm : memoryStage s.cfg s.em s.dmem = .ok (mw1, m1))
    (he : execute s.cfg s.de s.em s.mw = .ok em1) : cycle inj s = commit inj s em1 mw1 m1 := by
  simp only [cycle, hm, he]

/-- noop in DE executes to the NOOP latch, whatever is in EM and MW (R103). -/
theorem execute_noop (cfg : Config) (a b : Word) (em : EMLatch) (mw : MWLatch) :
    execute cfg ⟨.noop, a, b⟩ em mw = .ok .noop := by
  simp only [execute, operandA, operandB, resolvedSelect]
  cases fwdSelect cfg (Instr.rs .noop) em mw <;> cases fwdSelect cfg (Instr.rt .noop) em mw <;>
    simp [usesA, usesB, aluResult, aluNoop, storeData, Instr.name, EMLatch.noop]

/-- A run takes one step at a time. -/
theorem run_step {s t : State} (h : step s = .next t) (k : Nat) :
    Host.Core.run core (k + 1) s = Host.Core.run core k t := by
  have hc : core.step s = .next t := h
  simp only [Host.Core.run, hc]

end Sys2Proof.Machine
end

