-- ==== Sys2Proof/Tests/Slice0.lean ====
section
/-! SUPPORT. Tests: the refusals of WellFormed, words written out from the spec's encodings, one-step
tests of each instruction, and a witness for each statement that has hypotheses. Values come from
95_test_vectors where a vector has the case, else from hand calculation with the rule. -/

/- The theorems are checked one after another: each would otherwise hold a thread of its own. -/
set_option Elab.async false

namespace Sys2Proof.Tests

open Sys2Proof Sys2Proof.Machine Sys2Proof.Safety

/-! ## WellFormed refuses: one ill-formed term for each check -/

/-- The default codes with an encoding of its own for sll (30_encoding R62). -/
def sllCfg : Config := { Config.default with fnSll := 0x3F }

theorem test_wf_refuses_noop :
    WellFormed { Config.default with fnNoop := 2 } .noop = false := by decide

theorem test_wf_refuses_halt :
    WellFormed { Config.default with fnHalt := 2 } .halt = false ∧
    WellFormed { Config.default with fnHalt := 0 } .halt = false := by decide

theorem test_wf_refuses_add :
    WellFormed { Config.default with fnAdd := 0 } (.add 1 2 3 0) = false ∧
    WellFormed { Config.default with fnAdd := 1 } (.add 1 2 3 0) = false := by decide

theorem test_wf_refuses_sub :
    WellFormed { Config.default with fnSub := 0 } (.sub 1 2 3 0) = false ∧
    WellFormed { Config.default with fnSub := 1 } (.sub 1 2 3 0) = false ∧
    WellFormed { Config.default with fnSub := 32 } (.sub 1 2 3 0) = false := by decide

theorem test_wf_refuses_sll :
    WellFormed Config.default (.sll 0 8 9 4) = false ∧
    WellFormed { Config.default with fnSll := 1 } (.sll 0 8 9 4) = false ∧
    WellFormed { Config.default with fnSll := 32 } (.sll 0 8 9 4) = false ∧
    WellFormed { Config.default with fnSll := 34 } (.sll 0 8 9 4) = false := by decide

theorem test_wf_refuses_unknownR :
    WellFormed sllCfg (.unknownR 1 2 3 4 0) = false ∧
    WellFormed sllCfg (.unknownR 1 2 3 4 1) = false ∧
    WellFormed sllCfg (.unknownR 1 2 3 4 32) = false ∧
    WellFormed sllCfg (.unknownR 1 2 3 4 34) = false ∧
    WellFormed sllCfg (.unknownR 1 2 3 4 63) = false := by decide

theorem test_wf_refuses_lw :
    WellFormed { Config.default with opLw := 0 } (.lw 1 2 3) = false := by decide

theorem test_wf_refuses_sw :
    WellFormed { Config.default with opSw := 0 } (.sw 1 2 3) = false ∧
    WellFormed { Config.default with opSw := 35 } (.sw 1 2 3) = false := by decide

theorem test_wf_refuses_andi :
    WellFormed { Config.default with opAndi := 0 } (.andi 1 2 3) = false ∧
    WellFormed { Config.default with opAndi := 35 } (.andi 1 2 3) = false ∧
    WellFormed { Config.default with opAndi := 43 } (.andi 1 2 3) = false := by decide

theorem test_wf_refuses_ori :
    WellFormed { Config.default with opOri := 0 } (.ori 1 2 3) = false ∧
    WellFormed { Config.default with opOri := 35 } (.ori 1 2 3) = false ∧
    WellFormed { Config.default with opOri := 43 } (.ori 1 2 3) = false ∧
    WellFormed { Config.default with opOri := 12 } (.ori 1 2 3) = false := by decide

theorem test_wf_refuses_bne :
    WellFormed { Config.default with opBne := 0 } (.bne 1 2 3) = false ∧
    WellFormed { Config.default with opBne := 35 } (.bne 1 2 3) = false ∧
    WellFormed { Config.default with opBne := 43 } (.bne 1 2 3) = false ∧
    WellFormed { Config.default with opBne := 12 } (.bne 1 2 3) = false ∧
    WellFormed { Config.default with opBne := 13 } (.bne 1 2 3) = false := by decide

theorem test_wf_refuses_unknownI :
    WellFormed Config.default (.unknownI 0 1 2 3) = false ∧
    WellFormed Config.default (.unknownI 35 1 2 3) = false ∧
    WellFormed Config.default (.unknownI 43 1 2 3) = false ∧
    WellFormed Config.default (.unknownI 12 1 2 3) = false ∧
    WellFormed Config.default (.unknownI 13 1 2 3) = false ∧
    WellFormed Config.default (.unknownI 5 1 2 3) = false := by decide

/-! ## Decoding: words written out bit by bit from 30_encoding R53, R55 to R58 -/

/-- X-type: opcode 000000, twenty ignored bits, func. -/
theorem test_decode_noop :
    decode Config.default 0b000000_00000000000000000000_000000#32 = .noop ∧
    decode Config.default 0b000000_11111111111111111111_000000#32 = .noop := by decide

theorem test_decode_halt :
    decode Config.default 0b000000_00000000000000000000_000001#32 = .halt ∧
    decode Config.default 0b000000_11111111111111111111_000001#32 = .halt := by decide

/-- R-type: opcode 000000, rs, rt, rd, shamt, func. -/
theorem test_decode_add :
    decode Config.default 0b000000_01000_01001_01010_00011_100000#32 = .add 8 9 10 3 := by decide

theorem test_decode_sub :
    decode Config.default 0b000000_10001_00010_11111_00000_100010#32 = .sub 17 2 31 0 := by decide

theorem test_decode_sll :
    decode sllCfg 0b000000_00000_01000_01001_00100_111111#32 = .sll 0 8 9 4 ∧
    decode Config.default 0b000000_00000_01000_01001_00100_000000#32 = .noop := by decide

theorem test_decode_unknownR :
    decode Config.default 0b000000_01000_01001_01010_00011_100001#32 = .unknownR 8 9 10 3 33 := by
  decide

/-- I-type: opcode, rs, rt, imm16. -/
theorem test_decode_lw :
    decode Config.default 0b100011_01010_01001_1111111111111100#32 = .lw 10 9 0xFFFC ∧
    (Instr.lw 10 9 0xFFFC).imm = 0xFFFFFFFC#32 := by decide

theorem test_decode_sw :
    decode Config.default 0b101011_00000_01000_1000000000000000#32 = .sw 0 8 0x8000 ∧
    (Instr.sw 0 8 0x8000).imm = 0xFFFF8000#32 := by decide

theorem test_decode_andi :
    decode Config.default 0b001100_01000_01001_1111111100000000#32 = .andi 8 9 0xFF00 ∧
    (Instr.andi 8 9 0xFF00).imm = 0x0000FF00#32 := by decide

theorem test_decode_ori :
    decode Config.default 0b001101_01000_01001_1000000000000001#32 = .ori 8 9 0x8001 ∧
    (Instr.ori 8 9 0x8001).imm = 0x00008001#32 := by decide

theorem test_decode_bne :
    decode Config.default 0b000101_01000_01001_1111111111111101#32 = .bne 8 9 0xFFFD ∧
    (Instr.bne 8 9 0xFFFD).imm = 0x0000FFFD#32 := by decide

theorem test_decode_unknownI :
    decode Config.default 0b111111_01000_01001_1000000000000000#32 = .unknownI 63 8 9 0x8000 ∧
    (Instr.unknownI 63 8 9 0x8000).imm = 0x00008000#32 := by decide

theorem test_decodeTableWord :
    decodeTableWord 32 0x8C080004 = some (.lw 0 8 4) ∧ decodeTableWord 40 0x8C080004 = none := by
  decide

/-! ## One-step tests -/

/-- The outcome is a next state in which `p` holds. -/
def Answers (o : Host.Outcome State Fault Refusal) (p : State → Bool) : Bool :=
  match o with
  | .next t => p t
  | .fault _ => false
  | .refused _ => false

/-- An instruction in DE with the two values it read. -/
def inDE (i : Instr) (a b : Word) : State := { State.reset with de := ⟨i, a, b⟩ }

/-- An instruction in EM with its two derived fields. -/
def inEM (i : Instr) (alu wdata : Word) : State := { State.reset with em := ⟨i, alu, wdata⟩ }

/-- An instruction in MW with its two derived fields. -/
def inMW (i : Instr) (alu mdata : Word) : State := { State.reset with mw := ⟨i, alu, mdata⟩ }

/-- A state under another configuration. -/
def under (c : Config → Config) (s : State) : State := { s with cfg := c s.cfg }

/-- `MISALIGNED_POLICY = p`. -/
def policy (p : MisalignedPolicy) (c : Config) : Config := { c with misalignedPolicy := p }

/-- `NEAR_LOAD_FORWARD = p`. -/
def nearLoad (p : NearLoadForward) (c : Config) : Config := { c with nearLoadForward := p }

/-- `R0_HARDWIRED = true`. -/
def hardwired (c : Config) : Config := { c with r0Hardwired := true }

/-- V-A2: 7FFFFFFF + 1. -/
theorem test_add_alu :
    Answers (exec .noop (inDE (.add 8 9 10 0) 0x7FFFFFFF 1))
      (fun t => t.em = ⟨.add 8 9 10 0, 0x80000000, 0⟩) := by decide +kernel

theorem test_add_writes_rd :
    Answers (exec .noop (inMW (.add 8 9 10 0) 5 0))
      (fun t => t.regs[10] = 5 ∧ t.regs[8] = 0 ∧ t.regs[9] = 0) := by decide +kernel

/-- V-A4: 0 - 1. -/
theorem test_sub_alu :
    Answers (exec .noop (inDE (.sub 0 8 9 0) 0 1)) (fun t => t.em.alu = 0xFFFFFFFF) := by decide +kernel

theorem test_sub_writes_rd :
    Answers (exec .noop (inMW (.sub 0 8 9 0) 7 0)) (fun t => t.regs[9] = 7 ∧ t.regs[8] = 0) := by
  decide +kernel

/-- V-A8: F shifted by 4; the value of rs is not used. -/
theorem test_sll_alu :
    Answers (exec .noop (inDE (.sll 1 8 9 4) 0xAAAA 0xF)) (fun t => t.em.alu = 0xF0) := by decide +kernel

theorem test_sll_writes_rd :
    Answers (exec .noop (inMW (.sll 1 8 9 4) 0xF0 0)) (fun t => t.regs[9] = 0xF0 ∧ t.regs[8] = 0) := by
  decide +kernel

/-- V-M1: the address 8 + sext(FFFC) is 4. -/
theorem test_lw_address :
    Answers (exec .noop (inDE (.lw 10 9 0xFFFC) 8 0)) (fun t => t.em.alu = 4) := by decide +kernel

theorem test_lw_writes_rt :
    Answers (exec .noop (inMW (.lw 10 9 0xFFFC) 4 0x11)) (fun t => t.regs[9] = 0x11) := by decide +kernel

/-- V-M5: the store reaches word 2, and the read of that word gives the value. -/
theorem test_sw_stores :
    Answers (exec .noop (inEM (.sw 0 8 8) 8 7))
      (fun t => memRead t.cfg t.dmem 8 = .ok 7 ∧ memRead t.cfg t.dmem 4 = .ok 0) := by decide +kernel

theorem test_sw_write_data :
    Answers (exec .noop (inDE (.sw 0 8 8) 0 7)) (fun t => t.em = ⟨.sw 0 8 8, 8, 7⟩) := by decide +kernel

/-- V-I1. -/
theorem test_andi_alu :
    Answers (exec .noop (inDE (.andi 8 9 0xFF00) 0xFFFF1234 0)) (fun t => t.em.alu = 0x1200) := by
  decide +kernel

theorem test_andi_writes_rt :
    Answers (exec .noop (inMW (.andi 8 9 0xFF00) 0x1200 0)) (fun t => t.regs[9] = 0x1200) := by
  decide +kernel

/-- V-I4. -/
theorem test_ori_alu :
    Answers (exec .noop (inDE (.ori 8 9 0x00FF) 0x80000000 0)) (fun t => t.em.alu = 0x800000FF) := by
  decide +kernel

theorem test_ori_writes_rt :
    Answers (exec .noop (inMW (.ori 8 9 0x00FF) 3 0)) (fun t => t.regs[9] = 3) := by decide +kernel

/-- V-B1: bne with unequal operands moves pc by 4 only, and its result is 0. -/
theorem test_bne_never_branches :
    Answers (exec .noop (inDE (.bne 8 0 3) 1 0)) (fun t => t.pc = 4 ∧ t.em.alu = 0) := by decide +kernel

theorem test_bne_writes_nothing :
    Answers (exec .noop (inMW (.bne 8 9 3) 5 5)) (fun t => t.regs = State.reset.regs) := by decide +kernel

theorem test_noop_injected :
    Answers (exec .noop State.reset) (fun t => t.fd.instr = .noop ∧ t.pc = 4 ∧ t.cycles = 1) := by
  decide +kernel

/-- V-S1: halt in EM halts the machine in this cycle. -/
theorem test_halt_halts :
    Answers (exec .noop (inEM .halt 0 0)) (fun t => t.run = .halted ∧ t.mw.instr = .halt) := by
  decide +kernel

theorem test_halt_waits :
    Answers (exec .halt State.reset) (fun t => t.run = .running ∧ t.fd.instr = .halt) := by decide +kernel

theorem test_unknownR_no_effect :
    Answers (exec .noop (inDE (.unknownR 8 9 10 3 33) 5 6)) (fun t => t.em.alu = 0) ∧
    Answers (exec .noop (inMW (.unknownR 8 9 10 3 33) 5 6)) (fun t => t.regs = State.reset.regs) := by
  decide +kernel

theorem test_unknownI_no_effect :
    Answers (exec .noop (inDE (.unknownI 63 8 9 0x8000) 5 6)) (fun t => t.em.alu = 0) ∧
    Answers (exec .noop (inMW (.unknownI 63 8 9 0x8000) 5 6)) (fun t => t.regs = State.reset.regs) := by
  decide +kernel

theorem test_withFetchWord_runs_the_word :
    Answers (step (State.reset.withFetchWord 32 0x8C090080)) (fun t => t.fd.instr = .lw 0 9 128) := by
  decide +kernel

/-! ## Witnesses of the hypotheses, by obligation -/

theorem witness_XTypeWordsKeepOnlyFunc :
    Config.default.wf ∧ { Config.default with fnNoop := 1, fnHalt := 0 }.wf ∧
    (0x03FFFFC1#32).extractLsb' 26 6 = 0#6 ∧ (0x03FFFFC1#32).extractLsb' 0 6 = 1#6 ∧
    (0x03FFFFC0#32).extractLsb' 26 6 = 0#6 ∧ (0x03FFFFC0#32).extractLsb' 0 6 = 0#6 := by
  decide +kernel

/-- The words of add, sub, sll (with its own code) and an unknown R-type word. -/
theorem witness_RTypeWordsKeepTheirFields :
    [0x010848A0#32, 0x01285022#32, 0x0008493F#32, 0x0108483E#32].Forall fun w =>
      w.extractLsb' 26 6 = 0#6 ∧ ¬ (w.extractLsb' 0 6 = 0#6 ∨ w.extractLsb' 0 6 = 1#6) := by
  decide +kernel

theorem witness_ITypeWordsExtendByName :
    [0x8D49FFFC#32, 0xAC080008#32, 0x3109FF00#32, 0x35098001#32, 0x15090003#32, 0x04000001#32].Forall
      fun w => w.extractLsb' 26 6 ≠ 0#6 := by decide +kernel

theorem witness_EveryInstructionDecodesFromItsWord :
    ∀ i ∈ [Instr.noop, .halt, .add 31 31 31 31, .sub 1 2 3 4, .sll 1 2 3 4, .unknownR 1 2 3 4 2,
        .lw 1 2 0xFFFF, .sw 1 2 3, .andi 1 2 3, .ori 1 2 3, .bne 1 2 3, .unknownI 1 2 3 4],
      WellFormed sllCfg i = true := by decide +kernel

theorem witness_EveryWordEncodesBack : Config.default.wf ∧ sllCfg.wf := by decide +kernel

theorem witness_ShadowedSllNeverDecodes :
    (0x03FFFFC0#32).extractLsb' 26 6 = 0#6 ∧ (0x03FFFFC0#32).extractLsb' 0 6 = 0#6 ∧
    ∀ fn ∈ [(0 : Field6), 1, 32, 34], ∃ cfg : Config, cfg = { Config.default with fnSll := fn } ∧
      (cfg.fnSll = 0 ∨ cfg.fnSll = 1 ∨ cfg.fnSll = cfg.fnAdd ∨ cfg.fnSll = cfg.fnSub) := by
  simp [Config.default]

/-- `lw x8` in DE and an add that reads x8 in FD. -/
def loadUse : State :=
  { State.reset with fd := ⟨.add 8 8 9 0⟩, de := ⟨.lw 0 8 0, 0, 0⟩, pc := 8, cycles := 2 }

theorem witness_NoopIsTheZeroWord :
    State.reset.program.length ≤ State.reset.pc.toNat / 4 ∧
    loadUse.run = .running ∧ Clear loadUse ∧ LoadUse loadUse := by decide +kernel

theorem witness_LoadedStateHasTheResetValues :
    ∃ w rest, ([0x8C080000#32, 1#32] : List Word) = w :: rest := ⟨_, _, rfl⟩

/-- Data of exactly `DMEM_WORDS` words is admitted; one word more, an empty program and a program
whose halt is not its only last halt are not. -/
theorem witness_LaunchAdmittedExactlyOnPrecondition :
    admitted Config.default [0x8C080000, 1] (List.replicate 32 1) = true ∧
    admitted Config.default [1] (List.replicate 33 1) = false ∧
    admitted Config.default [] [] = false ∧ admitted Config.default [1, 1] [] = false ∧
    admitted Config.default [1, 0] [] = false := by decide +kernel

/-- One stored byte, word 1 holding 1 (little endian). -/
def mem1 : Memory := [(4, 1#8)]

theorem witness_StoredWordIsLoadedBack :
    Memory.wf mem1 ∧
    memWrite Config.default mem1 124 7 = .ok [(4, 1#8), (124, 7#8)] ∧
    inRange Config.default 124 ∧ aligned Config.default 124 ∧
    (policy .truncate Config.default).misalignedPolicy = .truncate ∧
    inRange (policy .truncate Config.default) 127 ∧
    memWrite (policy .truncate Config.default) mem1 127 7 = .ok [(4, 1#8), (124, 7#8)] ∧
    ¬ inRange Config.default 128 ∧ memWrite Config.default mem1 128 7 = .ok mem1 ∧
    dataWordAt Config.default 4 ≠ dataWordAt Config.default 124 := by decide +kernel

/-- The first and the last misaligned in-range address, under each policy. -/
theorem witness_MisalignedPolicyDecides :
    [1#32, 127#32].Forall fun ea => ∀ p ∈ [MisalignedPolicy.fault, .truncate, .outOfRange],
      let cfg := policy p Config.default
      (ea - cfg.dataBase).toNat < 4 * cfg.dmemWords ∧ (ea - cfg.dataBase).toNat % 4 ≠ 0 ∧
        cfg.misalignedPolicy = p := by decide +kernel

/-- lw in EM at 128 (out of range), 124 (the last word) and 127 (misaligned), under each policy. -/
theorem witness_LoadReadsItsDataWord :
    ∀ p ∈ [MisalignedPolicy.fault, .truncate, .outOfRange],
      let st := fun ea => under (policy p) (inEM (.lw 0 8 0) ea 0)
      ([128#32, 124#32, 127#32].Forall fun ea => (st ea).run = .running ∧ (st ea).em.instr.name = .lw ∧
        ¬ UnresolvedNow (st ea)) ∧
      4 * (st 128).cfg.dmemWords ≤ ((st 128).em.alu - (st 128).cfg.dataBase).toNat ∧
      ((st 124).em.alu - (st 124).cfg.dataBase).toNat < 4 * (st 124).cfg.dmemWords ∧
      ((st 124).em.alu - (st 124).cfg.dataBase).toNat % 4 = 0 ∧
      ((st 127).em.alu - (st 127).cfg.dataBase).toNat < 4 * (st 127).cfg.dmemWords ∧
      ((st 127).em.alu - (st 127).cfg.dataBase).toNat % 4 ≠ 0 ∧
      (st 127).cfg.misalignedPolicy = p := by decide +kernel

theorem witness_StoreWritesItsDataWord :
    ∀ p ∈ [MisalignedPolicy.fault, .truncate, .outOfRange],
      let st := fun ea => under (policy p) (inEM (.sw 0 8 0) ea 5)
      ([128#32, 124#32, 127#32].Forall fun ea => (st ea).run = .running ∧ (st ea).em.instr.name = .sw) ∧
      4 * (st 128).cfg.dmemWords ≤ ((st 128).em.alu - (st 128).cfg.dataBase).toNat ∧
      ((st 124).em.alu - (st 124).cfg.dataBase).toNat < 4 * (st 124).cfg.dmemWords ∧
      ((st 124).em.alu - (st 124).cfg.dataBase).toNat % 4 = 0 ∧
      ((st 127).em.alu - (st 127).cfg.dataBase).toNat < 4 * (st 127).cfg.dmemWords ∧
      ((st 127).em.alu - (st 127).cfg.dataBase).toNat % 4 ≠ 0 ∧
      (st 127).cfg.misalignedPolicy = p := by decide +kernel

theorem witness_StepRunsTheFetchedInstruction :
    (State.loaded Config.default [0x8C080000, 1] []).run = .running ∧
    (State.loaded Config.default [0x8C080000, 1] []).program[
      (State.loaded Config.default [0x8C080000, 1] []).pc.toNat / 4]? = some 0x8C080000 ∧
    State.reset.program[State.reset.pc.toNat / 4]? = none := by decide +kernel

/-- Every kind of instruction in MW, under both settings of `R0_HARDWIRED`. -/
theorem witness_WritebackCommitsTheInstructionInMW :
    ∀ i ∈ [Instr.noop, .halt, .add 1 2 0 4, .sub 1 2 31 4, .sll 1 2 3 4, .unknownR 1 2 3 4 2,
        .lw 1 0 3, .sw 1 2 3, .andi 1 2 3, .ori 1 2 3, .bne 1 2 3, .unknownI 1 2 3 4],
      ∀ s ∈ [inMW i 5 6, under hardwired (inMW i 5 6)],
        s.run = .running ∧ Clear s ∧ s.mw.instr = i := by decide +kernel

/-- With a load-use, with the guard that suppresses it (V-Z5: a lw into the loaded register), and
with no load. -/
theorem witness_StallExactlyOnLoadUse :
    LoadUse loadUse ∧ Clear loadUse ∧
    ¬ LoadUse { loadUse with fd := ⟨.lw 0 8 4⟩ } ∧ Clear { loadUse with fd := ⟨.lw 0 8 4⟩ } ∧
    ¬ LoadUse State.reset ∧ Clear State.reset := by decide +kernel

theorem witness_StallHoldsFetchAndInsertsBubble :
    loadUse.run = .running ∧ Clear loadUse ∧ LoadUse loadUse := by decide +kernel

/-- Also with register 0 hard-wired and named by the instruction in FD. -/
theorem witness_AdvanceShiftsEveryLatch :
    State.reset.run = .running ∧ Clear State.reset ∧ ¬ LoadUse State.reset ∧
    (under hardwired State.reset).cfg.r0Hardwired = true ∧ Clear (under hardwired State.reset) ∧
    (under hardwired State.reset).fd.instr.rs = 0 := by decide +kernel

/-- `andi x8, x8` in DE behind a `lw x8` in EM, with an older write to x8 in MW. -/
def nearState : State :=
  { State.reset with
    de := ⟨.andi 8 8 0xFF, 0, 0⟩, em := ⟨.lw 0 8 8, 8, 0⟩, mw := ⟨.ori 0 8 1, 1, 0⟩ }

/-- A near match with an ori and, behind it, only the far one. -/
def nearAlu : State := { nearState with em := ⟨.ori 0 8 2, 2, 0⟩ }
def farAlu : State := { nearState with em := .noop }

/-- A near match with a lw under `ea`; near, far and no match. -/
theorem witness_ExecuteTakesForwardedOperands :
    (let s := under (nearLoad .ea) nearState;
      Clear s ∧ NearLoadNow s ∧ s.cfg.nearLoadForward = .ea) ∧
    (Clear nearAlu ∧ ¬ NearLoadNow nearAlu ∧ wreg nearAlu.cfg nearAlu.em.instr = some 8) ∧
    (Clear farAlu ∧ ¬ NearLoadNow farAlu ∧ wreg farAlu.cfg farAlu.mw.instr = some 8) ∧
    (Clear (inDE (.sw 1 2 0) 0 5) ∧ ¬ NearLoadNow (inDE (.sw 1 2 0) 0 5)) :=
  ⟨by decide +kernel, by decide +kernel, by decide +kernel, by decide +kernel⟩

theorem witness_NearLoadForwardDecides :
    ∀ p ∈ [NearLoadForward.fault, .ea, .stale],
      let s := under (nearLoad p) nearState
      s.run = .running ∧ ¬ MisalignedNow s ∧ NearLoadNow s ∧ s.cfg.nearLoadForward = p := by
  decide +kernel

/-- Both faults at once, the near-load fault alone, and a Faulted state. -/
theorem witness_ModelFaultCommitsNothing :
    (let s : State := { nearState with em := ⟨.lw 0 8 2, 2, 0⟩ };
      s.run = .running ∧ MisalignedNow s ∧ UnresolvedNow s) ∧
    (nearState.run = .running ∧ ¬ MisalignedNow nearState ∧ UnresolvedNow nearState) ∧
    { State.reset with run := .faulted .misalignedData }.run = .faulted .misalignedData := by
  decide +kernel

theorem witness_FaultsOnlyInTheListedCases :
    nearState.run = .running ∧
    (let s := under (fun c => policy .truncate (nearLoad .ea c)) nearState;
      s.run = .running ∧ s.cfg.misalignedPolicy ≠ .fault ∧ s.cfg.nearLoadForward ≠ .fault) := by
  decide +kernel

theorem witness_HaltInMWEndsTheRun :
    (inEM .halt 0 0).run = .running ∧ Clear (inEM .halt 0 0) ∧ (inEM .halt 0 0).em.instr.name = .halt ∧
    Clear State.reset ∧ State.reset.em.instr.name ≠ .halt := by decide +kernel

theorem witness_CountersCountAndAreNotRead :
    (loadUse.run = .running ∧ Clear loadUse ∧ LoadUse loadUse) ∧
    (State.reset.run = .running ∧ ¬ (Clear State.reset ∧ LoadUse State.reset)) := by decide +kernel

/-- A running machine steps to the state its cycle computes. -/
theorem step_cycle {s : State} (h : s.run = .running) : step s = .next (cycle (inject s) s) := by
  rw [step_running h, exec_eq_cycle]

theorem witness_PcOnlyHoldsOrAdvances :
    (∃ t, step State.reset = .next t) ∧
    (State.reset.run = .running ∧ Clear State.reset ∧ ¬ LoadUse State.reset) ∧
    (∃ t, step loadUse = .next t) ∧ ¬ (loadUse.run = .running ∧ Clear loadUse ∧ ¬ LoadUse loadUse) :=
  ⟨⟨_, step_cycle rfl⟩, by decide +kernel, ⟨_, step_cycle rfl⟩, by decide +kernel⟩

/-- A sw to the last word, one out of range, and no sw, with a write-back in MW. -/
theorem witness_CycleFrame :
    (let s : State := { inEM (.sw 0 8 0) 124 5 with mw := ⟨.add 1 2 3 0, 4, 0⟩ };
      s.run = .running ∧ Clear s ∧ wreg s.cfg s.mw.instr ≠ some 31 ∧ s.em.instr.name = .sw ∧
        dataWordAt s.cfg s.em.alu = .ok (some 124)) ∧
    (let s := inEM (.sw 0 8 0) 128 5;
      Clear s ∧ s.em.instr.name = .sw ∧ dataWordAt s.cfg s.em.alu = .ok none) ∧
    (State.reset.em.instr.name ≠ .sw ∧ Clear State.reset) := by decide +kernel

theorem witness_LaunchConstantsNeverChange : ∃ t, step loadUse = .next t :=
  ⟨_, step_cycle rfl⟩

theorem witness_NoTwoStallsInARow :
    ∃ t u, step loadUse = .next t ∧ t.stalls = loadUse.stalls + 1 ∧ step t = .next u ∧
      t.run = .running ∧ Clear t :=
  ⟨cycle (inject loadUse) loadUse, _, step_cycle rfl, by decide +kernel,
    step_cycle (by decide +kernel), by decide +kernel, by decide +kernel⟩

theorem witness_HardwiredRegister0IsConstant :
    let s := under hardwired { State.reset with de := ⟨.lw 1 0 0, 0, 0⟩ }
    s.run = .running ∧ s.cfg.r0Hardwired = true ∧ s.de.instr.rt = 0 ∧ Clear s ∧ ¬ LoadUse s ∧
      s.fd.instr.rs = 0 ∧ s.fd.instr.rt = 0 := by decide +kernel

theorem witness_OrdinaryRegister0IsWritten :
    let s := inMW (.ori 0 0 5) 5 0
    s.run = .running ∧ Clear s ∧ s.cfg.r0Hardwired = false ∧ destField s.mw.instr = some 0 ∧
      ¬ LoadUse s ∧ s.fd.instr.rs = 0 := by decide +kernel

theorem witness_SignalsDescribeTheCycle :
    (let s : State := { State.loaded Config.default [1] [] with em := ⟨.lw 0 8 0, 124, 0⟩ };
      s.run = .running ∧ Clear s ∧ (signals s).imemWord = some 1 ∧ ¬ LoadUse s ∧
        (signals s).dmemRe = true ∧ (signals s).dmemWe = false) ∧
    (Clear (inEM (.sw 0 8 0) 124 5) ∧ (signals (inEM (.sw 0 8 0) 124 5)).dmemWe = true) := by
  decide +kernel

/-- A machine that runs with nothing in flight and no program left. -/
def alone : State := { State.reset with dmem := mem1 }

theorem witness_RegisterAluInstructionsComplete : Alone alone ∧ Alone (under hardwired alone) := by
  decide +kernel

/-- Also with program words that are noops, and stale derived fields in the latches. -/
theorem witness_ImmediateLogicInstructionsComplete :
    Alone alone ∧ Alone { State.loaded Config.default [0x35090001, 0, 0, 0, 0, 1] [] with
      em := ⟨.noop, 5, 5⟩, mw := ⟨.noop, 5, 5⟩ } := by decide +kernel

/-- The displacements 128 (out of range), 124 and 4 (aligned), 127 and 1 (misaligned), under each
policy that completes. -/
theorem witness_LoadCompletes :
    Alone alone ∧
    ∀ p ∈ [MisalignedPolicy.fault, .truncate, .outOfRange],
      let s := under (policy p) alone
      let off := fun d : Imm16 => (readReg s.cfg s.regs 0 + d.signExtend 32 - s.cfg.dataBase).toNat
      Alone s ∧ 4 * s.cfg.dmemWords ≤ off 128 ∧ 4 * s.cfg.dmemWords ≤ off 0xFFFC ∧
      ([(124 : Imm16), 4].Forall fun d => off d < 4 * s.cfg.dmemWords ∧ off d % 4 = 0) ∧
      ([(127 : Imm16), 1].Forall fun d => off d < 4 * s.cfg.dmemWords ∧ off d % 4 ≠ 0) ∧
      s.cfg.misalignedPolicy = p := by decide +kernel

theorem witness_StoreCompletes :
    Memory.wf alone.dmem ∧
    ∀ p ∈ [MisalignedPolicy.fault, .truncate, .outOfRange],
      let s := under (policy p) alone
      let off := fun d : Imm16 => (readReg s.cfg s.regs 0 + d.signExtend 32 - s.cfg.dataBase).toNat
      Alone s ∧ 4 * s.cfg.dmemWords ≤ off 128 ∧
      ([(124 : Imm16), 0].Forall fun d => off d < 4 * s.cfg.dmemWords ∧ off d % 4 = 0) ∧
      ([(127 : Imm16), 1].Forall fun d => off d < 4 * s.cfg.dmemWords ∧ off d % 4 ≠ 0) ∧
      s.cfg.misalignedPolicy = p := by decide +kernel

theorem witness_NoEffectInstructionsComplete : Alone alone ∧ Alone State.reset := by decide +kernel

theorem witness_HaltCompletes : Alone State.reset := by decide +kernel

theorem witness_LoneMisalignedAccessFaults :
    Alone alone ∧ alone.cfg.misalignedPolicy = .fault ∧
    [(1 : Imm16), 127].Forall fun d =>
      (readReg alone.cfg alone.regs 0 + d.signExtend 32 - alone.cfg.dataBase).toNat <
        4 * alone.cfg.dmemWords ∧
      (readReg alone.cfg alone.regs 0 + d.signExtend 32 - alone.cfg.dataBase).toNat % 4 ≠ 0 := by
  decide +kernel

/-- A running state with work in every latch: `ori x8`, its far reader, a load and a store. -/
def busy : State :=
  { State.reset with
    regs := State.reset.regs.set 8 3
    dmem := mem1
    pc := 16
    fd := ⟨.sw 0 9 8⟩
    de := ⟨.add 8 9 10 0, 3, 0⟩
    em := ⟨.ori 0 9 5, 5, 0⟩
    mw := ⟨.lw 0 8 4, 4, 1⟩
    cycles := 5
    stalls := 1 }

/-- The invariant is met by a state in the middle of a run. -/
theorem busy_inv : Inv busy where
  memoryForm := by decide +kernel
  memoryExtent := by decide +kernel
  pcAligned := by decide +kernel
  decodeReads := by decide +kernel
  writeSlot := by decide +kernel
  dataSlot := by decide +kernel
  executeZero := by decide +kernel
  memoryZero := by decide +kernel
  haltInMW := by decide +kernel
  register0 := by decide +kernel
  pcCounts := ⟨0, by decide +kernel⟩

theorem witness_EveryStepKeepsTheInvariant : Inv busy ∧ ∃ t, step busy = .next t :=
  ⟨busy_inv, _, step_cycle rfl⟩

theorem witness_LoadedStateMeetsTheInvariant :
    (List.replicate 32 (1 : Word)).length ≤ Config.default.dmemWords := by decide +kernel

theorem witness_OperandsAreTheValuesProducersCommit :
    Inv busy ∧ busy.run = .running ∧ Clear busy ∧ ¬ NearLoadNow busy ∧
    (let s : State := { busy with de := ⟨.sw 8 9 4, 3, 0⟩ };
      Clear s ∧ ¬ NearLoadNow s ∧ s.de.instr.name = .sw ∧ s.cfg.forwardStoreData = true) :=
  ⟨busy_inv, by decide +kernel⟩

/-- Two instructions and a halt. -/
def loop3 : List Word := [0x34080001, 0x01084820, 1]

theorem loop3_admitted : launch Config.default loop3 [] = .next (State.loaded Config.default loop3 []) :=
  if_pos (by decide +kernel)

/-- A run that answers a next state in which `p` holds. -/
theorem run_of_answers {k : Nat} {s : State} {p : State → Bool}
    (h : Answers (Host.Core.run core k s) p = true) :
    ∃ u, Host.Core.run core k s = .next u ∧ p u = true := by
  cases hr : Host.Core.run core k s with
  | next u => exact ⟨u, rfl, by rw [hr] at h; exact h⟩
  | fault r => rw [hr] at h; cases h
  | refused r => rw [hr] at h; cases h

theorem witness_PipelineRefinesSequentialExecution :
    ∃ s u, launch Config.default loop3 [] = .next s ∧ Config.default.forwardStoreData = true ∧
      Config.default.nearLoadForward = .fault ∧ Host.Core.run core 6 s = .next u ∧
      u.run = .halted := by
  obtain ⟨u, hu, hp⟩ := run_of_answers (k := 6) (s := State.loaded Config.default loop3 [])
    (p := fun u => u.run = .halted) (by decide +kernel)
  exact ⟨_, u, loop3_admitted, rfl, rfl, hu, of_decide_eq_true hp⟩

theorem witness_EveryLaunchEndsWithItsCycleCount :
    (∃ s, launch Config.default loop3 [] = .next s) ∧ loop3.length < 2 ^ 30 :=
  ⟨⟨_, loop3_admitted⟩, by decide +kernel⟩

end Sys2Proof.Tests
end

section
/-! PROOFS of the state statements (10_state): NOOP (R24) and the two counters (R31, R32). -/

namespace Sys2Proof.Machine

open Sys2Proof.Safety

/-! ## NOOP -/

/-- Past the end of the program the cycle driver injects the synthetic noop (R24, R72). -/
theorem inject_exhausted {s : State} (h : s.program.length ≤ s.pc.toNat / 4) : inject s = .noop := by
  simp only [inject, List.getElem?_eq_none h]

/-- A stall puts the bubble, the NOOP latch, into DE (R75). -/
theorem cycle_stall_de {s : State} (hc : Clear s) (hl : LoadUse s) (i : Instr) :
    (cycle i s).de = .noop := by
  obtain ⟨em1, mw1, m1, -, -, hcyc⟩ := cycle_clear hc i
  simp [hcyc, (stalled_iff s).mpr hl]

/-! ## The counters -/

/-- Every cycle is counted, a faulting one too (R31, R88). -/
@[simp] theorem cycle_cycles (i : Instr) (s : State) : (cycle i s).cycles = s.cycles + 1 := by
  obtain ⟨r, -, h⟩ | ⟨r, p, -, -, h⟩ | ⟨em1, mw1, m1, -, -, h⟩ := cycle_cases i s <;> simp [h]

/-- A cycle that is not clear commits nothing but its count (R88). -/
theorem cycle_of_not_clear {s : State} (hc : ¬ Clear s) (i : Instr) :
    ∃ r, cycle i s = enterFaulted r s := by
  obtain ⟨r, -, h⟩ | ⟨r, p, -, -, h⟩ | ⟨em1, mw1, m1, hm, he, -⟩ := cycle_cases i s
  · exact ⟨r, h⟩
  · exact ⟨r, h⟩
  · have hmis : ¬ MisalignedNow s := fun hn => by
      cases hm.symm.trans (memoryStage_error.mpr ⟨rfl, hn⟩)
    have hunr : ¬ UnresolvedNow s := fun hn => by
      cases he.symm.trans (execute_error.mpr ⟨rfl, hn⟩)
    exact absurd ⟨hmis, hunr⟩ hc

/-- Exactly a cycle that stalls and does not fault is counted as a stall (R32). -/
theorem cycle_stalls (i : Instr) (s : State) :
    (cycle i s).stalls = s.stalls + if Clear s ∧ LoadUse s then 1 else 0 := by
  by_cases hc : Clear s
  · obtain ⟨em1, mw1, m1, -, -, h⟩ := cycle_clear hc i
    simp only [h, commit_stalls, stalled_iff, and_iff_right hc]
  · obtain ⟨r, h⟩ := cycle_of_not_clear hc i
    rw [h, enterFaulted_stalls, if_neg fun hn => hc hn.1, Nat.add_zero]

/-- `s` with `c` more cycles and `k` more stalls on its counters. -/
def addCounts (c k : Nat) (s : State) : State :=
  { s with cycles := s.cycles + c, stalls := s.stalls + k }

theorem enterFaulted_addCounts (r : Fault) (c k : Nat) (s : State) :
    enterFaulted r (addCounts c k s) = addCounts c k (enterFaulted r s) := by
  simp [enterFaulted, addCounts, Nat.add_right_comm]

theorem commit_addCounts (i : Instr) (c k : Nat) (s : State) (e : EMLatch) (w : MWLatch)
    (m : Memory) :
    commit i (addCounts c k s) e w m = addCounts c k (commit i s e w m) := by
  have hs : stalled (addCounts c k s) = stalled s := rfl
  simp only [commit, hs]
  simp [addCounts, Nat.add_right_comm]

/-- A cycle carries the counters along and computes nothing from them (R31, R32). -/
theorem cycle_addCounts (i : Instr) (c k : Nat) (s : State) :
    cycle i (addCounts c k s) = addCounts c k (cycle i s) := by
  have hm : memoryStage (addCounts c k s).cfg (addCounts c k s).em (addCounts c k s).dmem =
    memoryStage s.cfg s.em s.dmem := rfl
  have he : execute (addCounts c k s).cfg (addCounts c k s).de (addCounts c k s).em
    (addCounts c k s).mw = execute s.cfg s.de s.em s.mw := rfl
  simp only [cycle, hm, he]
  split
  · exact enterFaulted_addCounts _ c k s
  · exact enterFaulted_addCounts _ c k s
  · exact commit_addCounts i c k s _ _ _

/-! ## The statements -/

/-- Settles O10: the zero word decodes by `decode_x`, and the bubble is `cycle_stall_de`. -/
theorem noopIsTheZeroWord : Obligations.NoopIsTheZeroWord := by
  refine ⟨?_, ?_, fun s h => inject_exhausted h, fun i s _ hc hl => ?_⟩
  · rw [decode_x Config.default (w := 0#32) (by decide) (.inl (by decide))]
    decide
  · decide
  · exact ⟨_, exec_eq_cycle i s, by rw [cycle_stall_de hc hl, DELatch_noop_instr]⟩

/-- Settles O27: the counts are `cycle_cycles` and `cycle_stalls`, and `cycle_addCounts` says that a
cycle commutes with raising both counters. -/
theorem countersCountAndAreNotRead : Obligations.CountersCountAndAreNotRead := by
  refine ⟨rfl, rfl, fun i s _ => ⟨cycle i s, exec_eq_cycle i s, cycle_cycles i s, ?_, ?_, ?_⟩⟩
  · intro hc hl
    rw [cycle_stalls, if_pos ⟨hc, hl⟩]
  · intro hn
    rw [cycle_stalls, if_neg hn, Nat.add_zero]
  · intro c k
    exact (exec_eq_cycle i _).trans (congrArg _ (cycle_addCounts i c k s))

end Sys2Proof.Machine
end

section
/-! PROOFS of the data-memory statements (20_memory): loads (R39), stores (R40) and the policy for
misaligned accesses (R41). -/

namespace Sys2Proof.Machine

open Sys2Proof.Safety

/-! ## What an access does, given the word it reaches -/

section
variable {cfg : Config} {ea : Word}

theorem memRead_of_reached {off : Nat} (h : dataWordAt cfg ea = .ok (some off)) (m : Memory) :
    memRead cfg m ea = .ok (Memory.readWord cfg.byteOrder m off) := by simp only [memRead, h]

theorem memWrite_of_reached {off : Nat} (h : dataWordAt cfg ea = .ok (some off)) (m : Memory)
    (v : Word) : memWrite cfg m ea v = .ok (Memory.writeWord cfg.byteOrder m off v) := by
  simp only [memWrite, h]

theorem memRead_of_unreached (h : dataWordAt cfg ea = .ok none) (m : Memory) :
    memRead cfg m ea = .ok 0 := by simp only [memRead, h]

theorem memWrite_of_unreached (h : dataWordAt cfg ea = .ok none) (m : Memory) (v : Word) :
    memWrite cfg m ea v = .ok m := by simp only [memWrite, h]

theorem memRead_of_error {r : Fault} (h : dataWordAt cfg ea = .error r) (m : Memory) :
    memRead cfg m ea = .error r := by simp only [memRead, h]

theorem memWrite_of_error {r : Fault} (h : dataWordAt cfg ea = .error r) (m : Memory) (v : Word) :
    memWrite cfg m ea v = .error r := by simp only [memWrite, h]

/-! ## The word a misaligned access reaches, one lemma for each policy (R41) -/

theorem dataWordAt_misaligned_fault (hi : inRange cfg ea) (ha : ¬ aligned cfg ea)
    (hp : cfg.misalignedPolicy = .fault) : dataWordAt cfg ea = .error .misalignedData := by
  rw [dataWordAt_misaligned hi ha, hp]

theorem dataWordAt_misaligned_truncate (hi : inRange cfg ea) (ha : ¬ aligned cfg ea)
    (hp : cfg.misalignedPolicy = .truncate) :
    dataWordAt cfg ea = .ok (some (4 * (dataOffset cfg ea / 4))) := by
  rw [dataWordAt_misaligned hi ha, hp]

theorem dataWordAt_misaligned_outOfRange (hi : inRange cfg ea) (ha : ¬ aligned cfg ea)
    (hp : cfg.misalignedPolicy = .outOfRange) : dataWordAt cfg ea = .ok none := by
  rw [dataWordAt_misaligned hi ha, hp]

end

/-! ## The cycle of a load or a store in EM -/

/-- A cycle whose memory stage answers and whose operands resolve commits that answer (R84, R85). -/
theorem exec_commits_memoryStage {s : State} {mw1 : MWLatch} {m1 : Memory}
    (hm : memoryStage s.cfg s.em s.dmem = .ok (mw1, m1)) (hu : ¬ UnresolvedNow s) (i : Instr) :
    ∃ t, exec i s = .next t ∧ t.mw = mw1 ∧ t.dmem = m1 := by
  cases he : execute s.cfg s.de s.em s.mw with
  | error r => exact absurd (execute_error.mp he).2 hu
  | ok em1 =>
    refine ⟨commit i s em1 mw1 m1, ?_, rfl, rfl⟩
    rw [exec_eq_cycle, cycle_eq_commit hm he]

theorem exec_lw_in_em {s : State} {v : Word} (hl : s.em.instr.name = .lw) (hu : ¬ UnresolvedNow s)
    (i : Instr) (hr : memRead s.cfg s.dmem s.em.alu = .ok v) :
    ∃ t, exec i s = .next t ∧ t.mw = ⟨s.em.instr, s.em.alu, v⟩ ∧ t.dmem = s.dmem := by
  have hm : memoryStage s.cfg s.em s.dmem = .ok (⟨s.em.instr, s.em.alu, v⟩, s.dmem) := by
    simp only [memoryStage, if_pos hl, hr]
  exact exec_commits_memoryStage hm hu i

/-- No operand waits for a sw in EM, so the cycle needs no premise on the operands (R81). -/
theorem exec_sw_in_em {s : State} {m1 : Memory} (hs : s.em.instr.name = .sw) (i : Instr)
    (hw : memWrite s.cfg s.dmem s.em.alu s.em.wdata = .ok m1) :
    ∃ t, exec i s = .next t ∧ t.mw = ⟨s.em.instr, s.em.alu, 0⟩ ∧ t.dmem = m1 := by
  have hl : s.em.instr.name ≠ .lw := by simp [hs]
  have hm : memoryStage s.cfg s.em s.dmem = .ok (⟨s.em.instr, s.em.alu, 0⟩, m1) := by
    simp only [memoryStage, if_neg hl, if_pos hs, hw]
  have hu : ¬ UnresolvedNow s := fun ⟨⟨hload, _⟩, _⟩ => hl hload
  exact exec_commits_memoryStage hm hu i

/-- The memory stage's ModelFault ends the cycle, whatever the execute stage answers (R88, R110). -/
theorem exec_of_misaligned {s : State} (h : MisalignedNow s) (i : Instr) :
    exec i s = .next (enterFaulted .misalignedData s) := by
  rw [exec_eq_cycle, cycle, memoryStage_error.mpr ⟨rfl, h⟩]

/-! ## The statements -/

/-- Settles O14: each policy fixes the word reached, and the word reached fixes both accesses. -/
theorem misalignedPolicyDecides : Obligations.MisalignedPolicyDecides := by
  intro cfg m ea v off hi ha
  refine ⟨fun hp => ?fault, fun hp => ?truncate, fun hp => ?outOfRange⟩
  case fault =>
    have hd := dataWordAt_misaligned_fault hi ha hp
    exact ⟨memRead_of_error hd m, memWrite_of_error hd m v⟩
  case truncate =>
    have hd := dataWordAt_misaligned_truncate hi ha hp
    exact ⟨memRead_of_reached hd m, memWrite_of_reached hd m v⟩
  case outOfRange =>
    have hd := dataWordAt_misaligned_outOfRange hi ha hp
    exact ⟨memRead_of_unreached hd m, memWrite_of_unreached hd m v⟩

/-- Settles O15: `exec_lw_in_em` with what the read answers in each case of range, alignment and
policy. -/
theorem loadReadsItsDataWord : Obligations.LoadReadsItsDataWord := by
  intro i s _ hl hu off loads
  have answers {v : Word} : memRead s.cfg s.dmem s.em.alu = .ok v → loads v := exec_lw_in_em hl hu i
  refine ⟨fun ho => ?outside, fun hi ha => ?aligned,
    fun hi ha => ⟨fun hp => ?truncate, fun hp => ?outOfRange, fun hp => ?fault⟩⟩
  case outside =>
    exact answers (memRead_of_unreached (dataWordAt_outOfRange (Nat.not_lt.mpr ho)) _)
  case aligned => exact answers (memRead_of_reached (dataWordAt_aligned hi ha) _)
  case truncate => exact answers (memRead_of_reached (dataWordAt_misaligned_truncate hi ha hp) _)
  case outOfRange =>
    exact answers (memRead_of_unreached (dataWordAt_misaligned_outOfRange hi ha hp) _)
  case fault => exact exec_of_misaligned ⟨.inl hl, hi, ha, hp⟩ i

/-- Settles O16: `exec_sw_in_em` with what the write answers in each case of range, alignment and
policy. -/
theorem storeWritesItsDataWord : Obligations.StoreWritesItsDataWord := by
  intro i s _ hs off stores
  have answers {m1 : Memory} : memWrite s.cfg s.dmem s.em.alu s.em.wdata = .ok m1 → stores m1 :=
    exec_sw_in_em hs i
  refine ⟨fun ho => ?outside, fun hi ha => ?aligned,
    fun hi ha => ⟨fun hp => ?truncate, fun hp => ?outOfRange, fun hp => ?fault⟩⟩
  case outside =>
    exact answers (memWrite_of_unreached (dataWordAt_outOfRange (Nat.not_lt.mpr ho)) _ _)
  case aligned => exact answers (memWrite_of_reached (dataWordAt_aligned hi ha) _ _)
  case truncate => exact answers (memWrite_of_reached (dataWordAt_misaligned_truncate hi ha hp) _ _)
  case outOfRange =>
    exact answers (memWrite_of_unreached (dataWordAt_misaligned_outOfRange hi ha hp) _ _)
  case fault => exact exec_of_misaligned ⟨.inr hs, hi, ha, hp⟩ i

end Sys2Proof.Machine
end

section
/-! PROOFS of the decoder statements (30_encoding): the type of a word (R54), the record of each
type (R55 to R58) and the map of all words by mask and match (R61). -/

namespace Sys2Proof

/-! ## The type and the record of a decoded word -/

/-- The decoder keeps the type that opcode and func give (R54). -/
theorem decode_type (cfg : Config) (w : Word) :
    (decode cfg w).type = classify (opcodeOf w) (funcOf w) := by
  unfold decode
  split
  next h => rw [decodeX_type, h]
  next h => rw [decodeR_type, h]
  next h => rw [decodeI_type, h]

/-- Under `cfg.wf` the two X-type function codes are exhaustive and differ (R55). -/
theorem func_eq_fnHalt_iff {cfg : Config} (hwf : cfg.wf) {fn : Field6} (h : fn = 0 ∨ fn = 1) :
    fn = cfg.fnHalt ↔ fn ≠ cfg.fnNoop := by
  obtain ⟨hn, hh⟩ | ⟨hn, hh⟩ := hwf
  · rw [hn, hh]
    obtain rfl | rfl := h <;> decide
  · rw [hn, hh]
    obtain rfl | rfl := h <;> decide

theorem decodeX_of_noop {cfg : Config} {w : Word} (h : funcOf w = cfg.fnNoop) :
    decodeX cfg w = .noop := if_pos h

theorem decodeX_of_not_noop {cfg : Config} {w : Word} (h : funcOf w ≠ cfg.fnNoop) :
    decodeX cfg w = .halt := if_neg h

/-- Exactly the words of `FN_HALT` are named halt (R55). -/
theorem decodeX_name_eq_halt_iff {cfg : Config} (hwf : cfg.wf) {w : Word}
    (h : funcOf w = 0 ∨ funcOf w = 1) : (decodeX cfg w).name = .halt ↔ funcOf w = cfg.fnHalt := by
  rw [func_eq_fnHalt_iff hwf h]
  by_cases hn : funcOf w = cfg.fnNoop
  · simp [decodeX_of_noop hn, hn, Instr.name]
  · simp [decodeX_of_not_noop hn, hn, Instr.name]

/-- The record of an X-type word (R55): an instruction of the X type has no field but `func`. -/
theorem decodeX_record {cfg : Config} (hwf : cfg.wf) {w : Word}
    (h : funcOf w = 0 ∨ funcOf w = 1) :
    (decodeX cfg w).record cfg =
      { name := if funcOf w = cfg.fnNoop then .noop else .halt, type := .x,
        rs := 0, rt := 0, rd := 0, shamt := 0, imm := 0, func := funcOf w, opcode := 0 } := by
  by_cases hn : funcOf w = cfg.fnNoop
  · rw [decodeX_of_noop hn, if_pos hn, hn]
    rfl
  · rw [decodeX_of_not_noop hn, if_neg hn, (func_eq_fnHalt_iff hwf h).mpr hn]
    rfl

/-- The R rows of R58, in the order they are tried. -/
theorem decodeR_rows (cfg : Config) (w : Word) :
    if funcOf w = cfg.fnAdd then decodeR cfg w = .add (rsOf w) (rtOf w) (rdOf w) (shamtOf w)
    else if funcOf w = cfg.fnSub then decodeR cfg w = .sub (rsOf w) (rtOf w) (rdOf w) (shamtOf w)
    else if funcOf w = cfg.fnSll then decodeR cfg w = .sll (rsOf w) (rtOf w) (rdOf w) (shamtOf w)
    else decodeR cfg w = .unknownR (rsOf w) (rtOf w) (rdOf w) (shamtOf w) (funcOf w) := by
  unfold decodeR
  split_ifs <;> rfl

/-- The record of an R-type word (R56, R58). -/
theorem decodeR_record (cfg : Config) (w : Word) :
    (decodeR cfg w).record cfg =
      { name := if funcOf w = cfg.fnAdd then .add else if funcOf w = cfg.fnSub then .sub
          else if funcOf w = cfg.fnSll then .sll else .unknown,
        type := .r, rs := rsOf w, rt := rtOf w, rd := rdOf w,
        shamt := shamtOf w, imm := 0, func := funcOf w, opcode := 0 } := by
  unfold decodeR
  split_ifs with hadd hsub hsll
  case pos => rw [hadd]; rfl
  case pos => rw [hsub]; rfl
  case pos => rw [hsll]; rfl
  case neg => rfl

/-- The I rows of R58, in the order they are tried. -/
theorem decodeI_rows (cfg : Config) (w : Word) :
    if opcodeOf w = cfg.opLw then decodeI cfg w = .lw (rsOf w) (rtOf w) (imm16Of w)
    else if opcodeOf w = cfg.opSw then decodeI cfg w = .sw (rsOf w) (rtOf w) (imm16Of w)
    else if opcodeOf w = cfg.opAndi then decodeI cfg w = .andi (rsOf w) (rtOf w) (imm16Of w)
    else if opcodeOf w = cfg.opOri then decodeI cfg w = .ori (rsOf w) (rtOf w) (imm16Of w)
    else if opcodeOf w = cfg.opBne then decodeI cfg w = .bne (rsOf w) (rtOf w) (imm16Of w)
    else decodeI cfg w = .unknownI (opcodeOf w) (rsOf w) (rtOf w) (imm16Of w) := by
  unfold decodeI
  split_ifs <;> rfl

/-- The name of an I-type word comes from its opcode (R58). -/
theorem decodeI_name (cfg : Config) (w : Word) :
    (decodeI cfg w).name =
      if opcodeOf w = cfg.opLw then .lw else if opcodeOf w = cfg.opSw then .sw
      else if opcodeOf w = cfg.opAndi then .andi else if opcodeOf w = cfg.opOri then .ori
      else if opcodeOf w = cfg.opBne then .bne else .unknown := by
  unfold decodeI
  split_ifs <;> rfl

/-- The record of an I-type word, the immediate extended as the resolved name asks (R57). -/
theorem decodeI_record (cfg : Config) (w : Word) :
    (decodeI cfg w).record cfg =
      { name := (decodeI cfg w).name, type := .i, rs := rsOf w, rt := rtOf w, rd := 0,
        shamt := 0, func := 0, opcode := opcodeOf w,
        imm := if (decodeI cfg w).name = .lw ∨ (decodeI cfg w).name = .sw
          then sext32 (imm16Of w) else zext32 (imm16Of w) } := by
  unfold decodeI
  split
  next hlw => rw [hlw]; rfl
  split
  next hsw => rw [hsw]; rfl
  split
  next handi => rw [handi]; rfl
  split
  next hori => rw [hori]; rfl
  split
  next hbne => rw [hbne]; rfl
  next => rfl

/-! ## Masks and matches -/

theorem opcodeOf_append (op : Field6) (middle : BitVec 20) (fn : Field6) :
    opcodeOf (op ++ middle ++ fn) = op := by
  refine BitVec.eq_of_getLsbD_eq fun i hi => ?_
  simp only [opcodeOf, BitVec.getLsbD_append, BitVec.getLsbD_extractLsb']
  interval_cases i <;> simp

theorem funcOf_append (above : BitVec 26) (fn : Field6) : funcOf (above ++ fn) = fn :=
  BitVec.extractLsb'_append_eq_right

/-- The mask of the rows of R61 that name a func keeps opcode and func. -/
theorem mask_opcode_func (w : Word) :
    w &&& 0xFC00003F#32 = opcodeOf w ++ 0#20 ++ funcOf w := by
  refine BitVec.eq_of_getLsbD_eq fun i hi => ?_
  simp only [opcodeOf, funcOf, BitVec.getLsbD_append, BitVec.getLsbD_extractLsb',
    BitVec.getLsbD_and]
  interval_cases i <;> simp

/-- The mask of the rows of R61 that name an opcode alone keeps it. -/
theorem mask_opcode (w : Word) : w &&& 0xFC000000#32 = opcodeOf w ++ 0#26 := by
  refine BitVec.eq_of_getLsbD_eq fun i hi => ?_
  simp only [opcodeOf, BitVec.getLsbD_append, BitVec.getLsbD_extractLsb', BitVec.getLsbD_and]
  interval_cases i <;> simp

/-- The match of a row of R61 that names a func: the opcode is 0 and the func is that one. -/
theorem mask_opcode_func_eq_iff (w : Word) (fn : Field6) :
    w &&& 0xFC00003F#32 = fn.setWidth 32 ↔ opcodeOf w = 0 ∧ funcOf w = fn := by
  have hfn : fn.setWidth 32 = 0#6 ++ 0#20 ++ fn := BitVec.setWidth_eq_append (v := 6) (by decide)
  rw [mask_opcode_func, hfn]
  constructor
  · intro h
    have hop := congrArg opcodeOf h
    have hfunc := congrArg funcOf h
    rw [opcodeOf_append, opcodeOf_append] at hop
    rw [funcOf_append, funcOf_append] at hfunc
    exact ⟨hop, hfunc⟩
  · rintro ⟨hop, rfl⟩
    rw [hop]
    rfl

/-- The match of a row of R61 that names an opcode alone. -/
theorem mask_opcode_eq_iff (w : Word) (op : Field6) :
    w &&& 0xFC000000#32 = op ++ 0#26 ↔ opcodeOf w = op := by
  rw [mask_opcode, BitVec.append_left_inj]

/-! ## The statements -/

/-- Settles O1: `decode_type`, the tests of `classify` read on the bits of the word. -/
theorem decodeClassifiesByOpcodeAndFunc : Obligations.DecodeClassifiesByOpcodeAndFunc :=
  decode_type

/-- Settles O2: `decodeX_record` under either assignment of the two codes, and no bit of 25:6 is
read. -/
theorem xTypeWordsKeepOnlyFunc : Obligations.XTypeWordsKeepOnlyFunc := by
  intro cfg hwf
  refine ⟨fun w hop hfn => ?_, fun ignored => ⟨?noop, ?halt⟩⟩
  · rw [decode_x cfg hop hfn]
    exact ⟨decodeX_record hwf hfn, decodeX_name_eq_halt_iff hwf hfn⟩
  case noop =>
    have hop : opcodeOf (0#6 ++ ignored ++ 0#6) = 0 := opcodeOf_append _ _ _
    have hfn : funcOf (0#6 ++ ignored ++ 0#6) = 0 := funcOf_append _ _
    rw [decode_x Config.default hop (.inl hfn), decodeX_of_noop hfn]
  case halt =>
    have hop : opcodeOf (0#6 ++ ignored ++ 1#6) = 0 := opcodeOf_append _ _ _
    have hfn : funcOf (0#6 ++ ignored ++ 1#6) = 1 := funcOf_append _ _
    rw [decode_x Config.default hop (.inr hfn), decodeX_of_not_noop (by rw [hfn]; decide)]

/-- Settles O3: `decodeR_record`. -/
theorem rTypeWordsKeepTheirFields : Obligations.RTypeWordsKeepTheirFields := by
  intro cfg w fn hop hfn
  rw [decode_r cfg hop hfn]
  exact decodeR_record cfg w

/-- Settles O4: `decodeI_record` with the name of `decodeI_name`. -/
theorem iTypeWordsExtendByName : Obligations.ITypeWordsExtendByName := by
  intro cfg w op imm16 hop name
  rw [decode_i cfg hop, decodeI_record, decodeI_name]
  rfl

/-- Settles O5: each match of R61 is a test of opcode and func, and the type of the word leaves the
rows of its own decoder. -/
theorem opcodeMapByMaskAndMatch : Obligations.OpcodeMapByMaskAndMatch := by
  intro fnSll w i rs rt rd sh imm
  let cfg : Config := { Config.default with fnSll := fnSll }
  have hnoop : w &&& 0xFC00003F#32 = 0x00000000#32 ↔ _ := mask_opcode_func_eq_iff w 0
  have hhalt : w &&& 0xFC00003F#32 = 0x00000001#32 ↔ _ := mask_opcode_func_eq_iff w 1
  have hadd : w &&& 0xFC00003F#32 = 0x00000020#32 ↔ _ := mask_opcode_func_eq_iff w 32
  have hsub : w &&& 0xFC00003F#32 = 0x00000022#32 ↔ _ := mask_opcode_func_eq_iff w 34
  have hr : w &&& 0xFC000000#32 = 0x00000000#32 ↔ _ := mask_opcode_eq_iff w 0
  have hlw : w &&& 0xFC000000#32 = 0x8C000000#32 ↔ _ := mask_opcode_eq_iff w 35
  have hsw : w &&& 0xFC000000#32 = 0xAC000000#32 ↔ _ := mask_opcode_eq_iff w 43
  have handi : w &&& 0xFC000000#32 = 0x30000000#32 ↔ _ := mask_opcode_eq_iff w 12
  have hori : w &&& 0xFC000000#32 = 0x34000000#32 ↔ _ := mask_opcode_eq_iff w 13
  have hbne : w &&& 0xFC000000#32 = 0x14000000#32 ↔ _ := mask_opcode_eq_iff w 5
  simp only [hnoop, hhalt, hadd, hsub, mask_opcode_func_eq_iff, hr, hlw, hsw, handi, hori, hbne]
  by_cases hop : opcodeOf w = 0
  · simp only [hop, true_and, if_true]
    by_cases hfn : funcOf w = 0 ∨ funcOf w = 1
    · rw [show i = decodeX cfg w from decode_x cfg hop hfn]
      obtain h0 | h1 := hfn
      · rw [if_pos h0]
        exact decodeX_of_noop h0
      · have h0 : funcOf w ≠ 0 := by rw [h1]; decide
        rw [if_neg h0, if_pos h1]
        exact decodeX_of_not_noop h0
    · obtain ⟨h0, h1⟩ := not_or.mp hfn
      rw [show i = decodeR cfg w from decode_r cfg hop hfn, if_neg h0, if_neg h1]
      exact decodeR_rows cfg w
  · simp only [hop, false_and, if_false]
    rw [show i = decodeI cfg w from decode_i cfg hop]
    exact decodeI_rows cfg w

end Sys2Proof
end

section
/-! PROOFS of the pipeline statements (40_pipeline): write-back (R70), the hazard unit (R74, R75), the
advance of the latches (R76, R77), and the operands of execute (R79 to R81). -/

namespace Sys2Proof.Machine

open Sys2Proof.Safety

/-! ## A cycle that raises no ModelFault -/

/-- What `exec` answers in a clear cycle: the commit of what the two stages answer (R84, R85). -/
theorem exec_clear {s : State} (hc : Clear s) (i : Instr) :
    ∃ em1 mw1 m1, exec i s = .next (commit i s em1 mw1 m1) ∧
      memoryStage s.cfg s.em s.dmem = .ok (mw1, m1) ∧ execute s.cfg s.de s.em s.mw = .ok em1 := by
  obtain ⟨em1, mw1, m1, hm, he, hcyc⟩ := cycle_clear hc i
  exact ⟨em1, mw1, m1, by rw [exec_eq_cycle, hcyc], hm, he⟩

/-- EM and MW advance in every clear cycle, stall or not (R75, R76). -/
theorem exec_advances_em_mw {s : State} (hc : Clear s) (i : Instr) :
    ∃ em1 mw1 m1, exec i s = .next (commit i s em1 mw1 m1) ∧
      em1.instr = s.de.instr ∧ mw1.instr = s.em.instr ∧ mw1.alu = s.em.alu := by
  obtain ⟨em1, mw1, m1, hexec, hm, he⟩ := exec_clear hc i
  obtain ⟨hinstr, halu, -, -⟩ := memoryStage_ok hm
  obtain ⟨opA, opB, -, -, rfl⟩ := execute_ok he
  exact ⟨_, mw1, m1, hexec, rfl, hinstr, halu⟩

/-- The execute stage's ModelFault ends the cycle when the memory stage raises none (R88, R110). -/
theorem exec_of_unresolved {s : State} (hm : ¬ MisalignedNow s) (hu : UnresolvedNow s) (i : Instr) :
    exec i s = .next (enterFaulted .unresolvedLoadUse s) := by
  have he : execute s.cfg s.de s.em s.mw = .error .unresolvedLoadUse := execute_error.mpr ⟨rfl, hu⟩
  cases hstage : memoryStage s.cfg s.em s.dmem with
  | error r => exact absurd (memoryStage_error.mp hstage).2 hm
  | ok p => simp only [exec_eq_cycle, cycle, hstage, he]

/-! ## Write-back -/

/-- Write-back writes the destination field; the drop of a hard-wired register 0 is `writeReg`'s
as much as `wreg`'s (R17, R73). -/
theorem writeback_of_destField {cfg : Config} {mw : MWLatch} {r : Field5}
    (h : destField mw.instr = some r) (x : Regs) :
    writeback cfg x mw = writeReg cfg x r (commitValue mw) := by
  by_cases h0 : cfg.r0Hardwired = true ∧ r = 0
  · rw [writeback_none (by simp only [wreg, h, if_pos h0]), writeReg, if_pos h0]
  · exact writeback_some (by simp only [wreg, h, if_neg h0])

theorem writeback_of_no_destField {cfg : Config} {mw : MWLatch} (h : destField mw.instr = none)
    (x : Regs) : writeback cfg x mw = x := writeback_none (by simp only [wreg, h])

theorem wrote_writeReg (cfg : Config) (x : Regs) (r : Field5) (v : Word) :
    Wrote cfg x (writeReg cfg x r v) r v := by
  by_cases h0 : cfg.r0Hardwired = true ∧ r = 0
  · simp only [Wrote, writeReg, if_pos h0]
  · rw [Wrote, if_neg h0]
    intro q
    simp only [getElem_writeReg, h0, not_false_iff, true_and]

/-- Write-back writes the committed value to the destination field and nothing else (R70). -/
theorem wrote_writeback {cfg : Config} {mw : MWLatch} {r : Field5} {v : Word}
    (h : destField mw.instr = some r) (hv : commitValue mw = v) (x : Regs) :
    Wrote cfg x (writeback cfg x mw) r v := by
  rw [writeback_of_destField h, hv]
  exact wrote_writeReg cfg x r v

/-! ## The operand channels -/

section
variable {s : State} {used : Bool} {src : Field5} {sel : Forward}

/-- The MW half of a channel (R79, R80). -/
theorem forwarded_farSelect (s : State) (src : Field5) (read : Word) :
    forwarded (farSelect s.cfg src s.mw) s.em s.mw read = farOnly s src read := by
  by_cases hf : wreg s.cfg s.mw.instr = some src <;>
    simp only [farSelect, farOnly, hf, if_true, if_false, forwarded, commitValue]

/-- Without a near match, a channel takes the far value or the read at decode (R79). -/
theorem resolvedSelect_of_no_near (hn : wreg s.cfg s.em.instr ≠ some src) :
    resolvedSelect s.cfg used src s.em s.mw = .ok (farSelect s.cfg src s.mw) := by
  by_cases hf : wreg s.cfg s.mw.instr = some src <;>
    simp only [resolvedSelect, fwdSelect, farSelect, hn, hf, if_true, if_false]

theorem nearFirst_of_no_near (hn : wreg s.cfg s.em.instr ≠ some src) (read : Word) :
    nearFirst s src read = farOnly s src read := if_neg hn

/-- A near match that no lw makes for a used channel, or one under `ea`, stands (R80, R81). -/
theorem resolvedSelect_of_near (hn : wreg s.cfg s.em.instr = some src)
    (hea : used = true → s.em.instr.name = .lw → s.cfg.nearLoadForward = .ea) :
    resolvedSelect s.cfg used src s.em s.mw = .ok .near := by
  by_cases hl : used = true ∧ s.em.instr.name = .lw
  · simp only [resolvedSelect, fwdSelect, if_pos hn, if_pos hl, hea hl.1 hl.2]
  · simp only [resolvedSelect, fwdSelect, if_pos hn, if_neg hl]

/-- A used channel's near match with a lw is ignored under `stale` (R81). -/
theorem resolvedSelect_stale (hl : s.em.instr.name = .lw) (hp : s.cfg.nearLoadForward = .stale) :
    resolvedSelect s.cfg true src s.em s.mw = .ok (farSelect s.cfg src s.mw) := by
  by_cases hn : wreg s.cfg s.em.instr = some src
  · simp only [resolvedSelect, fwdSelect, if_pos hn, hl, and_self, if_true, hp]
  · exact resolvedSelect_of_no_near hn

/-- A channel whose near match is not refused or ignored gives `nearFirst` (R80). -/
theorem forwarded_eq_nearFirst (h : resolvedSelect s.cfg used src s.em s.mw = .ok sel)
    (hea : used = true → s.em.instr.name = .lw → wreg s.cfg s.em.instr = some src →
      s.cfg.nearLoadForward = .ea) (read : Word) :
    forwarded sel s.em s.mw read = nearFirst s src read := by
  by_cases hn : wreg s.cfg s.em.instr = some src
  · cases h.symm.trans (resolvedSelect_of_near hn fun hu hl => hea hu hl hn)
    exact (if_pos hn).symm
  · cases h.symm.trans (resolvedSelect_of_no_near hn)
    rw [forwarded_farSelect, nearFirst_of_no_near hn]

/-- A used channel gives `farOnly` behind a lw under `stale` (R81). -/
theorem forwarded_eq_farOnly (h : resolvedSelect s.cfg used src s.em s.mw = .ok sel)
    (hu : used = true) (hl : s.em.instr.name = .lw) (hp : s.cfg.nearLoadForward = .stale)
    (read : Word) : forwarded sel s.em s.mw read = farOnly s src read := by
  subst hu
  cases h.symm.trans (resolvedSelect_stale hl hp)
  exact forwarded_farSelect s src read

end

/-! ## The execute stage -/

/-- Each instruction's result and write-data slot are those of its rule (R83, R93 to R105). -/
theorem executed_aluResult (cfg : Config) (de : DELatch) (a b : Word) :
    Executed cfg de.instr a b de.readB ⟨de.instr, aluResult de.instr a b, storeData cfg de b⟩ := by
  obtain ⟨i, readA, readB⟩ := de
  cases i <;> exact ⟨rfl, rfl, rfl⟩

/-- An instruction's latch depends on the channels it uses alone (R78). -/
theorem executed_congr {cfg : Config} {i : Instr} {a a' b b' read : Word} {e : EMLatch}
    (ha : usesA i = true → a = a') (hb : usesB cfg i = true → b = b')
    (h : Executed cfg i a b read e) : Executed cfg i a' b' read e := by
  cases i with
  | add | sub => rwa [← ha rfl, ← hb rfl]
  | sll => rwa [Executed, ← hb rfl]
  | lw | andi | ori => rwa [Executed, ← ha rfl]
  | sw =>
    rw [← ha rfl]
    by_cases hf : cfg.forwardStoreData = true
    · rwa [← hb hf]
    · simpa only [Executed, if_neg hf] using h
  | noop | halt | unknownR | bne | unknownI => exact h

/-- A clear cycle executes the instruction in DE on what the selects of its two channels give
(R80, R83). -/
theorem exec_executes {s : State} (hc : Clear s) (i : Instr) :
    ∃ t selA selB, exec i s = .next t ∧
      resolvedSelect s.cfg (usesA s.de.instr) s.de.instr.rs s.em s.mw = .ok selA ∧
      resolvedSelect s.cfg (usesB s.cfg s.de.instr) s.de.instr.rt s.em s.mw = .ok selB ∧
      Executed s.cfg s.de.instr (forwarded selA s.em s.mw s.de.readA)
        (forwarded selB s.em s.mw s.de.readB) s.de.readB t.em := by
  obtain ⟨em1, mw1, m1, hexec, -, he⟩ := exec_clear hc i
  obtain ⟨opA, opB, hA, hB, rfl⟩ := execute_ok he
  simp only [operandA] at hA
  simp only [operandB] at hB
  split at hA <;> cases hA
  split at hB <;> cases hB
  exact ⟨_, _, _, hexec, ‹_›, ‹_›, executed_aluResult s.cfg s.de _ _⟩

/-- A clear cycle without a near-forwarded lw, or under `ea`, executes on near-first operands
(R80, R81). -/
theorem exec_executes_nearFirst {s : State} (hc : Clear s)
    (hea : NearLoadNow s → s.cfg.nearLoadForward = .ea) (i : Instr) :
    ∃ t, exec i s = .next t ∧
      Executed s.cfg s.de.instr (nearFirst s s.de.instr.rs s.de.readA)
        (nearFirst s s.de.instr.rt s.de.readB) s.de.readB t.em := by
  obtain ⟨t, selA, selB, hexec, hA, hB, h⟩ := exec_executes hc i
  rw [forwarded_eq_nearFirst hA fun hu hl hn => hea ⟨hl, .inl ⟨hu, hn⟩⟩,
    forwarded_eq_nearFirst hB fun hu hl hn => hea ⟨hl, .inr ⟨hu, hn⟩⟩] at h
  exact ⟨t, hexec, h⟩

/-! ## The statements -/

/-- Settles O18: the destination field and the committed value of each instruction in MW. -/
theorem writebackCommitsTheInstructionInMW : Obligations.WritebackCommitsTheInstructionInMW := by
  intro i s _ hc
  obtain ⟨em1, mw1, m1, hexec, -, -⟩ := exec_clear hc i
  refine ⟨_, hexec, ?_⟩
  simp only [commit_regs]
  cases hi : s.mw.instr with
  | add | sub | sll | andi | ori =>
    exact wrote_writeback (by rw [hi, destField]) (if_neg (by simp [hi, Instr.name])) s.regs
  | lw => exact wrote_writeback (by rw [hi, destField]) (if_pos (by rw [hi, Instr.name])) s.regs
  | noop | halt | unknownR | sw | bne | unknownI =>
    exact writeback_of_no_destField (by rw [hi, destField]) s.regs

/-- Settles O19: `cycle_stalls` counts exactly the clear cycles with a load-use. -/
theorem stallExactlyOnLoadUse : Obligations.StallExactlyOnLoadUse := by
  intro i s _ hc
  refine ⟨_, exec_eq_cycle i s, fun hl => ?_, fun hl => ?_⟩
  · rw [cycle_stalls, if_pos ⟨hc, hl⟩]
  · rw [cycle_stalls, if_neg fun h => hl h.2, Nat.add_zero]

/-- Settles O20: the commit of a stalled cycle, with EM and MW from `exec_advances_em_mw`. -/
theorem stallHoldsFetchAndInsertsBubble : Obligations.StallHoldsFetchAndInsertsBubble := by
  intro i s _ hc hl
  obtain ⟨em1, mw1, m1, hexec, hem, hmw, halu⟩ := exec_advances_em_mw hc i
  have hs : stalled s = true := (stalled_iff s).mpr hl
  refine ⟨_, hexec, ?_⟩
  simp [hs, hem, hmw, halu, DELatch.noop]

/-- Settles O21: the commit of a cycle that does not stall; `decodeStage` reads what write-back
leaves. -/
theorem advanceShiftsEveryLatch : Obligations.AdvanceShiftsEveryLatch := by
  intro i s _ hc hl
  obtain ⟨em1, mw1, m1, hexec, hem, hmw, halu⟩ := exec_advances_em_mw hc i
  have hs : ¬ stalled s = true := fun h => hl ((stalled_iff s).mp h)
  refine ⟨_, hexec, ?_⟩
  simp [hs, hem, hmw, halu, decodeStage, readReg]

/-- Settles O22: each channel's select gives `nearFirst`, a near-forwarded lw being under `ea`. -/
theorem executeTakesForwardedOperands : Obligations.ExecuteTakesForwardedOperands :=
  fun i _ _ hc hea => exec_executes_nearFirst hc hea i

/-- Settles O23: under `stale` the used channels give `farOnly`, and the latch does not depend on an
unused one. -/
theorem nearLoadForwardDecides : Obligations.NearLoadForwardDecides := by
  intro i s _ hm hn
  have hclear (hp : s.cfg.nearLoadForward ≠ .fault) : Clear s := ⟨hm, fun hu => hp hu.2⟩
  refine ⟨fun hp => ?fault, fun hp => ?ea, fun hp => ?stale⟩
  case fault => exact exec_of_unresolved hm ⟨hn, hp⟩ i
  case ea => exact exec_executes_nearFirst (hclear (by simp [hp])) (fun _ => hp) i
  case stale =>
    obtain ⟨t, selA, selB, hexec, hA, hB, h⟩ := exec_executes (hclear (by simp [hp])) i
    exact ⟨t, hexec, executed_congr (fun hu => forwarded_eq_farOnly hA hu hn.1 hp _)
      (fun hu => forwarded_eq_farOnly hB hu hn.1 hp _) h⟩

end Sys2Proof.Machine
end

section
/-! PROOFS of the reset and launch statements (70_reset_and_hazards): the reset values (R120) and the
launch precondition (R122). -/

namespace Sys2Proof.Machine

/-! ## The initial data words -/

/-- Placing data from word `k` on leaves the words below `k` alone. -/
theorem readWord_placeData_below (order : ByteOrder) (data : List Word) {j k : Nat} (hjk : j < k)
    (m : Memory) :
    Memory.readWord order (placeData order k data m) (4 * j) = Memory.readWord order m (4 * j) := by
  induction data generalizing k m with
  | nil => rfl
  | cons v rest ih =>
    rw [placeData, ih (by omega), readWord_writeWord_other order m v (by omega)]

/-- Word `k + j` holds the data word of index `j`; past the end of the data it is as before
(R36, R44). -/
theorem readWord_placeData (order : ByteOrder) (data : List Word) (j k : Nat) {m : Memory}
    (hm : Memory.wf m) :
    Memory.readWord order (placeData order k data m) (4 * (k + j)) =
      (data[j]?).getD (Memory.readWord order m (4 * (k + j))) := by
  induction data generalizing j k m with
  | nil => rfl
  | cons v rest ih =>
    rw [placeData]
    cases j with
    | zero =>
      rw [readWord_placeData_below order rest (by omega)]
      exact readWord_writeWord_same hm order (4 * k) v
    | succ j =>
      have hword := ih j (k + 1) (writeWord_wf hm order (4 * k) v)
      rw [readWord_writeWord_other order m v (by omega), Nat.add_right_comm] at hword
      exact hword

/-- Empty data memory reads 0 everywhere (R36). -/
theorem readWord_nil (order : ByteOrder) (off : Nat) : Memory.readWord order [] off = 0 := by
  simp only [Memory.readWord, readByte_nil]
  decide

/-! ## The instruction at the program counter -/

/-- The cycle driver injects the program word at `pc` (R72). -/
theorem inject_of_getElem? {s : State} {w : Word} (h : s.program[s.pc.toNat / 4]? = some w) :
    inject s = decode s.cfg w := by simp only [inject, h]

/-! ## The launch precondition -/

/-- Only the halt instruction is named halt (R22). -/
theorem name_eq_halt_iff (i : Instr) : i.name = .halt ↔ i = .halt := by
  cases i <;> simp [Instr.name]

/-- An empty program is not admitted (R122, `N >= 1`). -/
theorem admitted_nil (cfg : Config) (data : List Word) : admitted cfg [] data = false := rfl

/-- What admits a program, by its last word and the words before it (R122). -/
theorem admitted_append_singleton (cfg : Config) (before : List Word) (last : Word)
    (data : List Word) :
    admitted cfg (before ++ [last]) data = true ↔
      (decode cfg last).name = .halt ∧ (∀ w ∈ before, (decode cfg w).name ≠ .halt) ∧
        (before ++ [last]).length ≤ 2 ^ 30 ∧ data.length ≤ cfg.dmemWords := by
  simp only [admitted, List.getLast?_concat, List.dropLast_concat, Bool.and_eq_true,
    decide_eq_true_iff, List.all_eq_true, name_eq_halt_iff, ne_eq, and_assoc]

/-- An admitted program ends in its only halt and, as its data, fits (R122). -/
theorem admitted_iff (cfg : Config) (program data : List Word) :
    admitted cfg program data = true ↔ ∃ before last, program = before ++ [last] ∧
      (decode cfg last).name = .halt ∧ (∀ w ∈ before, (decode cfg w).name ≠ .halt) ∧
      program.length ≤ 2 ^ 30 ∧ data.length ≤ cfg.dmemWords := by
  constructor
  · intro h
    obtain rfl | ⟨before, last, rfl⟩ := List.eq_nil_or_concat' program
    · rw [admitted_nil] at h
      cases h
    · exact ⟨before, last, rfl, (admitted_append_singleton cfg before last data).mp h⟩
  · rintro ⟨before, last, rfl, h⟩
    exact (admitted_append_singleton cfg before last data).mpr h

theorem launch_of_admitted {cfg : Config} {program data : List Word}
    (h : admitted cfg program data = true) :
    launch cfg program data = .next (State.loaded cfg program data) := if_pos h

theorem launch_of_not_admitted {cfg : Config} {program data : List Word}
    (h : ¬ admitted cfg program data = true) :
    launch cfg program data = .refused .launchNotAdmitted := if_neg h

/-! ## The statements -/

/-- Settles O11: the fields by the lemmas of `loaded`, the data words by `readWord_placeData` over
the empty memory, and the entry point by `inject_of_getElem?`. -/
theorem loadedStateHasTheResetValues : Obligations.LoadedStateHasTheResetValues := by
  intro cfg program data s
  have hregs : ∀ r : Field5, s.regs[r.toNat] = 0 := fun r => by
    simp only [s, loaded_regs, Vector.getElem_replicate]
  have hdata : ∀ k, Memory.readWord cfg.byteOrder s.dmem (4 * k) = (data[k]?).getD 0 := fun k => by
    have hword := readWord_placeData cfg.byteOrder data k 0 (m := []) (by decide)
    rwa [Nat.zero_add, readWord_nil] at hword
  have hentry : ∀ w rest, program = w :: rest → inject s = decode cfg w := by
    rintro w rest rfl
    exact inject_of_getElem? (by simp [s])
  exact ⟨rfl, rfl, rfl, rfl, rfl, rfl, hregs, rfl, rfl, rfl, rfl, hdata, hentry⟩

/-- Settles O12: `admitted_iff` turns the precondition into the launch's test. -/
theorem launchAdmittedExactlyOnPrecondition : Obligations.LaunchAdmittedExactlyOnPrecondition := by
  intro cfg program data good
  have hgood : admitted cfg program data = true ↔ good := admitted_iff cfg program data
  exact ⟨fun h => launch_of_admitted (hgood.mpr h),
    fun h => launch_of_not_admitted fun ha => h (hgood.mp ha)⟩

end Sys2Proof.Machine
end

section
/-! PROOFS that decode and encode agree (30_encoding section 2), and that a shadowed sll is never
decoded (30_encoding section 3). -/

namespace Sys2Proof

/-! ## What the decoder reads from a word of each format -/

theorem decode_encodeX (cfg : Config) {fn : Field6} (h : isXFunc fn) :
    decode cfg (encodeX fn) = if fn = cfg.fnNoop then .noop else .halt := by
  rw [decode_x cfg (opcodeOf_encodeX fn) (by rwa [funcOf_encodeX]), decodeX, funcOf_encodeX]

theorem decode_encodeR (cfg : Config) (rs rt rd shamt : Field5) {fn : Field6} (h : ¬ isXFunc fn) :
    decode cfg (encodeR rs rt rd shamt fn) =
      if fn = cfg.fnAdd then .add rs rt rd shamt
      else if fn = cfg.fnSub then .sub rs rt rd shamt
      else if fn = cfg.fnSll then .sll rs rt rd shamt
      else .unknownR rs rt rd shamt fn := by
  rw [decode_r cfg (opcodeOf_encodeR rs rt rd shamt fn) (by rwa [funcOf_encodeR])]
  simp only [decodeR, funcOf_encodeR, rsOf_encodeR, rtOf_encodeR, rdOf_encodeR, shamtOf_encodeR]

theorem decode_encodeI (cfg : Config) {op : Field6} (h : op ≠ 0) (rs rt : Field5) (imm16 : Imm16) :
    decode cfg (encodeI op rs rt imm16) =
      if op = cfg.opLw then .lw rs rt imm16
      else if op = cfg.opSw then .sw rs rt imm16
      else if op = cfg.opAndi then .andi rs rt imm16
      else if op = cfg.opOri then .ori rs rt imm16
      else if op = cfg.opBne then .bne rs rt imm16
      else .unknownI op rs rt imm16 := by
  rw [decode_i cfg (by rwa [opcodeOf_encodeI])]
  simp only [decodeI, opcodeOf_encodeI, rsOf_encodeI, rtOf_encodeI, imm16Of_encodeI]

/-! ## A word is put together from its fields -/

theorem encodeR_fields {w : Word} (h : opcodeOf w = 0) :
    encodeR (rsOf w) (rtOf w) (rdOf w) (shamtOf w) (funcOf w) = w := by
  rw [encodeR, ← h]
  refine BitVec.eq_of_getLsbD_eq fun i hi => ?_
  simp only [opcodeOf, rsOf, rtOf, rdOf, shamtOf, funcOf, BitVec.getLsbD_append,
    BitVec.getLsbD_extractLsb']
  interval_cases i <;> simp

theorem encodeI_fields (w : Word) : encodeI (opcodeOf w) (rsOf w) (rtOf w) (imm16Of w) = w := by
  rw [encodeI]
  refine BitVec.eq_of_getLsbD_eq fun i hi => ?_
  simp only [opcodeOf, rsOf, rtOf, imm16Of, BitVec.getLsbD_append, BitVec.getLsbD_extractLsb']
  interval_cases i <;> simp

/-- An X-type word keeps its `func` and clears the bits 25:6 that it ignores (R55). -/
theorem encodeX_funcOf {w : Word} (h : opcodeOf w = 0) : encodeX (funcOf w) = w &&& 0xFC00003F#32 := by
  rw [mask_opcode_func, h]
  rfl

/-! ## The word of a decoded instruction, by type -/

section
variable (cfg : Config) (w : Word)

theorem decodeX_encodes_back (hwf : cfg.wf) (hop : opcodeOf w = 0)
    (hfn : funcOf w = 0 ∨ funcOf w = 1) :
    WellFormed cfg (decodeX cfg w) = true ∧
      encode cfg (decodeX cfg w) = w &&& 0xFC00003F#32 := by
  rw [← encodeX_funcOf hop]
  by_cases hn : funcOf w = cfg.fnNoop
  · rw [decodeX_of_noop hn]
    exact ⟨decide_eq_true (hn ▸ hfn), by rw [encode, hn]⟩
  · have hh : funcOf w = cfg.fnHalt := (func_eq_fnHalt_iff hwf hfn).mpr hn
    rw [decodeX_of_not_noop hn]
    exact ⟨decide_eq_true ⟨hh ▸ hfn, hh ▸ hn⟩, by rw [encode, hh]⟩

theorem decodeR_encodes_back (hop : opcodeOf w = 0) (hfn : ¬ (funcOf w = 0 ∨ funcOf w = 1)) :
    WellFormed cfg (decodeR cfg w) = true ∧ encode cfg (decodeR cfg w) = w := by
  have hw := encodeR_fields hop
  unfold decodeR
  split_ifs with hadd hsub hsll
  · exact ⟨decide_eq_true (hadd ▸ hfn), by rwa [encode, ← hadd]⟩
  · exact ⟨decide_eq_true ⟨hsub ▸ hfn, hsub ▸ hadd⟩, by rwa [encode, ← hsub]⟩
  · exact ⟨decide_eq_true ⟨hsll ▸ hfn, hsll ▸ hadd, hsll ▸ hsub⟩, by rwa [encode, ← hsll]⟩
  · exact ⟨decide_eq_true ⟨hfn, hadd, hsub, hsll⟩, hw⟩

theorem decodeI_encodes_back (hop : opcodeOf w ≠ 0) :
    WellFormed cfg (decodeI cfg w) = true ∧ encode cfg (decodeI cfg w) = w := by
  have hw := encodeI_fields w
  unfold decodeI
  split_ifs with hlw hsw handi hori hbne
  · exact ⟨decide_eq_true (hlw ▸ hop), by rwa [encode, ← hlw]⟩
  · exact ⟨decide_eq_true ⟨hsw ▸ hop, hsw ▸ hlw⟩, by rwa [encode, ← hsw]⟩
  · exact ⟨decide_eq_true ⟨handi ▸ hop, handi ▸ hlw, handi ▸ hsw⟩, by rwa [encode, ← handi]⟩
  · exact ⟨decide_eq_true ⟨hori ▸ hop, hori ▸ hlw, hori ▸ hsw, hori ▸ handi⟩, by rwa [encode, ← hori]⟩
  · exact ⟨decide_eq_true ⟨hbne ▸ hop, hbne ▸ hlw, hbne ▸ hsw, hbne ▸ handi, hbne ▸ hori⟩,
      by rwa [encode, ← hbne]⟩
  · exact ⟨decide_eq_true ⟨hop, hlw, hsw, handi, hori, hbne⟩, hw⟩

end

/-! ## The statements -/

/-- Settles O6: what the decoder reads from the word's format, the conditions of `WellFormed` choosing
the row. -/
theorem everyInstructionDecodesFromItsWord : Obligations.EveryInstructionDecodesFromItsWord := by
  intro cfg i hi
  cases i with
  | noop => rw [encode, decode_encodeX cfg (of_decide_eq_true hi), if_pos rfl]
  | halt =>
    obtain ⟨hx, hn⟩ := of_decide_eq_true hi
    rw [encode, decode_encodeX cfg hx, if_neg hn]
  | add => rw [encode, decode_encodeR cfg _ _ _ _ (of_decide_eq_true hi), if_pos rfl]
  | sub =>
    obtain ⟨hx, hadd⟩ := of_decide_eq_true hi
    rw [encode, decode_encodeR cfg _ _ _ _ hx, if_neg hadd, if_pos rfl]
  | sll =>
    obtain ⟨hx, hadd, hsub⟩ := of_decide_eq_true hi
    rw [encode, decode_encodeR cfg _ _ _ _ hx, if_neg hadd, if_neg hsub, if_pos rfl]
  | unknownR =>
    obtain ⟨hx, hadd, hsub, hsll⟩ := of_decide_eq_true hi
    rw [encode, decode_encodeR cfg _ _ _ _ hx, if_neg hadd, if_neg hsub, if_neg hsll]
  | lw => rw [encode, decode_encodeI cfg (of_decide_eq_true hi), if_pos rfl]
  | sw =>
    obtain ⟨h0, hlw⟩ := of_decide_eq_true hi
    rw [encode, decode_encodeI cfg h0, if_neg hlw, if_pos rfl]
  | andi =>
    obtain ⟨h0, hlw, hsw⟩ := of_decide_eq_true hi
    rw [encode, decode_encodeI cfg h0, if_neg hlw, if_neg hsw, if_pos rfl]
  | ori =>
    obtain ⟨h0, hlw, hsw, handi⟩ := of_decide_eq_true hi
    rw [encode, decode_encodeI cfg h0, if_neg hlw, if_neg hsw, if_neg handi, if_pos rfl]
  | bne =>
    obtain ⟨h0, hlw, hsw, handi, hori⟩ := of_decide_eq_true hi
    rw [encode, decode_encodeI cfg h0, if_neg hlw, if_neg hsw, if_neg handi, if_neg hori, if_pos rfl]
  | unknownI =>
    obtain ⟨h0, hlw, hsw, handi, hori, hbne⟩ := of_decide_eq_true hi
    rw [encode, decode_encodeI cfg h0, if_neg hlw, if_neg hsw, if_neg handi, if_neg hori, if_neg hbne]

/-- Settles O7: the decoder of each type, and only the X type clears bits. -/
theorem everyWordEncodesBack : Obligations.EveryWordEncodesBack := by
  intro cfg w hwf
  by_cases hop : opcodeOf w = 0
  · by_cases hfn : funcOf w = 0 ∨ funcOf w = 1
    · rw [decode_x cfg hop hfn, if_pos (decodeX_type cfg w)]
      exact decodeX_encodes_back cfg w hwf hop hfn
    · rw [decode_r cfg hop hfn, if_neg (by rw [decodeR_type]; decide)]
      exact decodeR_encodes_back cfg w hop hfn
  · rw [decode_i cfg hop, if_neg (by rw [decodeI_type]; decide)]
    exact decodeI_encodes_back cfg w hop

/-- An R-type word names sll only by a code that is not shadowed (R61, R62). -/
theorem name_eq_sll {cfg : Config} {w : Word} (h : (decode cfg w).name = .sll) :
    funcOf w = cfg.fnSll ∧ funcOf w ≠ 0 ∧ funcOf w ≠ 1 ∧ funcOf w ≠ cfg.fnAdd ∧
      funcOf w ≠ cfg.fnSub := by
  by_cases hop : opcodeOf w = 0
  · by_cases hfn : funcOf w = 0 ∨ funcOf w = 1
    · rw [decode_x cfg hop hfn, decodeX] at h
      split_ifs at h <;> cases h
    · rw [decode_r cfg hop hfn, decodeR] at h
      obtain ⟨h0, h1⟩ := not_or.mp hfn
      split_ifs at h with hadd hsub hsll <;> cases h
      exact ⟨hsll, h0, h1, hadd, hsub⟩
  · rw [decode_i cfg hop, decodeI_name] at h
    split_ifs at h

/-- Settles O9: a word that names sll has a code of its own (`name_eq_sll`), which each of the four
cases denies. -/
theorem shadowedSllNeverDecodes : Obligations.ShadowedSllNeverDecodes := by
  refine ⟨fun w hop hfn => ?noop, fun cfg hshadow w hname => ?sll⟩
  case noop =>
    rw [decode_x Config.default hop (.inl hfn)]
    exact decodeX_of_noop hfn
  case sll =>
    obtain ⟨hsll, h0, h1, hadd, hsub⟩ := name_eq_sll hname
    rw [hsll] at h0 h1 hadd hsub
    obtain h | h | h | h := hshadow
    · exact h0 h
    · exact h1 h
    · exact hadd h
    · exact hsub h

/-- Settles O8: thirteen fixed words, each decoded by evaluation. -/
theorem writtenOutWordsDecode : Obligations.WrittenOutWordsDecode := by
  unfold Obligations.WrittenOutWordsDecode
  decide

end Sys2Proof
end

section
/-! PROOFS of the invariant (10_state sections 2, 3, 6 and 7): it holds at reset and at every loaded
state, and every step keeps it. -/

namespace Sys2Proof.Machine

open Sys2Proof.Safety

/-! ## The facts that one clause of the invariant needs -/

/-- A no-effect instruction has ALU value 0 on any operands (R101, R103 to R105). -/
theorem aluResult_of_zeroResult {i : Instr} (h : ZeroResult i) (a b : Word) : aluResult i a b = 0 := by
  cases i with
  | noop | halt | bne | unknownR | unknownI => rfl
  | add | sub | sll | lw | sw | andi | ori => simp [ZeroResult, Instr.name] at h

/-- The write-data slot is 0 but for sw (R27). -/
theorem storeData_of_ne_sw {de : DELatch} (h : de.instr.name ≠ .sw) (cfg : Config) (b : Word) :
    storeData cfg de b = 0 := if_neg h

/-- `wreg` names register 0 only when it is ordinary (R17, R73). -/
theorem wreg_ne_zero {cfg : Config} (h : cfg.r0Hardwired = true) (i : Instr) : wreg cfg i ≠ some 0 :=
  fun hw => (wreg_some hw).2 ⟨h, rfl⟩

/-- The value that an ordinary register 0 would have is its cell (R17). -/
theorem readReg_zero_ordinary (cfg : Config) (x : Regs) :
    readReg { cfg with r0Hardwired := false } x 0 = x[(0 : Field5).toNat] := by simp [readReg]

theorem toNat_add_four_mod_four {pc : Word} (h : pc.toNat % 4 = 0) : (pc + 4).toNat % 4 = 0 := by
  have h4 : (4 : Word).toNat = 4 := rfl
  rw [BitVec.toNat_add, h4]
  omega

/-- While the machine runs, `pc` counts the cycles that are no stalls (R19, R31, R32). -/
theorem inv_running_pc {s : State} (h : Inv s) (hr : s.run = .running) :
    s.stalls ≤ s.cycles ∧ s.pc = BitVec.ofNat 32 (4 * (s.cycles - s.stalls)) := by
  obtain ⟨faulting, hf, hle, hpc⟩ := h.pcCounts
  rw [if_pos (.inl hr)] at hf
  subst hf
  exact ⟨hle, hpc⟩

/-- A running machine has no halt in MW (R30, R86). -/
theorem inv_running_mw {s : State} (h : Inv s) (hr : s.run = .running) : s.mw.instr ≠ .halt := by
  intro hm
  have hh := h.haltInMW.mpr hm
  rw [hr] at hh
  cases hh

/-! ## The two ends of a cycle keep the invariant -/

/-- A ModelFault keeps everything but the run state and the count (R88). -/
theorem inv_enterFaulted {s : State} (h : Inv s) (hr : s.run = .running) (r : Fault) :
    Inv (enterFaulted r s) where
  memoryForm := h.memoryForm
  memoryExtent := h.memoryExtent
  pcAligned := h.pcAligned
  decodeReads := h.decodeReads
  writeSlot := h.writeSlot
  dataSlot := h.dataSlot
  executeZero := h.executeZero
  memoryZero := h.memoryZero
  haltInMW := by simpa using inv_running_mw h hr
  register0 := h.register0
  pcCounts := by
    obtain ⟨hle, hpc⟩ := inv_running_pc h hr
    refine ⟨1, by simp, ?_, ?_⟩
    · simpa using hle
    · have hn : s.cycles + 1 - s.stalls - 1 = s.cycles - s.stalls := by omega
      simpa [hn] using hpc

/-- The commit of a cycle without a ModelFault (R85). -/
theorem inv_commit {s : State} (h : Inv s) (hr : s.run = .running) (i : Instr) {em1 : EMLatch}
    {mw1 : MWLatch} {m1 : Memory} (hm : memoryStage s.cfg s.em s.dmem = .ok (mw1, m1))
    (he : execute s.cfg s.de s.em s.mw = .ok em1) : Inv (commit i s em1 mw1 m1) := by
  obtain ⟨hinstr, halu, hmdata, -⟩ := memoryStage_ok hm
  obtain ⟨opA, opB, -, -, rfl⟩ := execute_ok he
  obtain ⟨hle, hpc⟩ := inv_running_pc h hr
  exact {
    memoryForm := memoryStage_wf hm h.memoryForm
    memoryExtent := memoryStage_inExtent hm h.memoryExtent
    pcAligned := by
      rw [commit_pc]
      split
      · exact h.pcAligned
      · exact toNat_add_four_mod_four h.pcAligned
    decodeReads := by
      rw [commit_de, commit_regs, commit_cfg]
      split
      · exact .inl rfl
      · exact .inr rfl
    writeSlot := fun hn => storeData_of_ne_sw hn s.cfg opB
    dataSlot := by
      rw [commit_mw, hinstr]
      exact hmdata
    executeZero := fun hz => aluResult_of_zeroResult hz opA opB
    memoryZero := by
      rw [commit_mw, hinstr, halu]
      exact h.executeZero
    haltInMW := by
      rw [commit_run, commit_mw, hr, ← name_eq_halt_iff]
      by_cases hh : mw1.instr.name = .halt
      · rw [if_pos hh]
        exact iff_of_true rfl hh
      · rw [if_neg hh]
        exact iff_of_false (by simp) hh
    register0 := fun h0 => by
      have hkept := getElem_writeback_other (x := s.regs) (wreg_ne_zero h0 s.mw.instr)
      have hcell := h.register0 h0
      rw [readReg_zero_ordinary] at hcell ⊢
      exact hkept.trans hcell
    pcCounts := by
      refine ⟨0, ?_, ?_, ?_⟩
      · simp [hr]
      · simp only [commit_stalls, commit_cycles]
        split <;> omega
      · simp only [commit_pc, commit_cycles, commit_stalls]
        split
        · rw [hpc]
          congr 2
          omega
        · have hn : 4 * (s.cycles + 1 - (s.stalls + 0) - 0) = 4 * (s.cycles - s.stalls) + 4 := by omega
          rw [hpc, hn, BitVec.ofNat_add]
          rfl }

/-- A cycle keeps the invariant, whatever instruction is injected. -/
theorem inv_cycle {s : State} (h : Inv s) (hr : s.run = .running) (i : Instr) : Inv (cycle i s) := by
  obtain ⟨r, -, hcyc⟩ | ⟨r, p, -, -, hcyc⟩ | ⟨em1, mw1, m1, hm, he, hcyc⟩ := cycle_cases i s
  · rw [hcyc]
    exact inv_enterFaulted h hr r
  · rw [hcyc]
    exact inv_enterFaulted h hr r
  · rw [hcyc]
    exact inv_commit h hr i hm he

theorem inv_loaded (cfg : Config) (program : List Word) {data : List Word}
    (h : data.length ≤ cfg.dmemWords) : Inv (State.loaded cfg program data) where
  memoryForm := placeData_wf cfg.byteOrder data 0 reset_memory_wf
  memoryExtent := placeData_inExtent cfg.byteOrder data 0 (by simpa using h) (fun c hc => nomatch hc)
  pcAligned := rfl
  decodeReads := .inl rfl
  writeSlot := fun _ => rfl
  dataSlot := fun _ => rfl
  executeZero := fun _ => rfl
  memoryZero := fun _ => rfl
  haltInMW := by simp
  register0 := fun _ => by simp [readReg]
  pcCounts := ⟨0, by simp⟩

/-! ## The statements -/

/-- Settles O42: a step that answers a next state is a cycle (`inv_cycle`) or keeps the state. -/
theorem everyStepKeepsTheInvariant : Obligations.EveryStepKeepsTheInvariant := by
  intro s t h hstep
  obtain ⟨hr, rfl⟩ | ⟨-, rfl⟩ := step_next hstep
  · exact inv_cycle h hr (inject s)
  · exact h

/-- Settles O43: `inv_loaded`; reset is the loaded state of an empty launch. -/
theorem loadedStateMeetsTheInvariant : Obligations.LoadedStateMeetsTheInvariant :=
  ⟨inv_loaded Config.default [] (data := []) (Nat.zero_le _), fun cfg program _ => inv_loaded cfg program⟩

end Sys2Proof.Machine
end

section
/-! PROOFS of the statements about one clock event (40_pipeline, 60_exceptions section 1): its frame,
its faults, the program counter, halt, the stall, register 0 and the signals. -/

namespace Sys2Proof.Machine

open Sys2Proof.Safety

/-! ## The fields of the state after a cycle -/

@[simp] theorem cycle_program (i : Instr) (s : State) : (cycle i s).program = s.program := by
  obtain ⟨r, -, h⟩ | ⟨r, p, -, -, h⟩ | ⟨em1, mw1, m1, -, -, h⟩ := cycle_cases i s <;> simp [h]

@[simp] theorem cycle_cfg (i : Instr) (s : State) : (cycle i s).cfg = s.cfg := by
  obtain ⟨r, -, h⟩ | ⟨r, p, -, -, h⟩ | ⟨em1, mw1, m1, -, -, h⟩ := cycle_cases i s <;> simp [h]

theorem cycle_of_misaligned {s : State} (h : MisalignedNow s) (i : Instr) :
    cycle i s = enterFaulted .misalignedData s := by
  simpa [exec_eq_cycle] using exec_of_misaligned h i

theorem cycle_of_unresolved {s : State} (hm : ¬ MisalignedNow s) (hu : UnresolvedNow s) (i : Instr) :
    cycle i s = enterFaulted .unresolvedLoadUse s := by
  simpa [exec_eq_cycle] using exec_of_unresolved hm hu i

/-- A cycle writes back the instruction in MW, or nothing when it faults (R70, R88). -/
theorem cycle_regs (i : Instr) (s : State) :
    (cycle i s).regs = if Clear s then writeback s.cfg s.regs s.mw else s.regs := by
  by_cases hc : Clear s
  · obtain ⟨em1, mw1, m1, -, -, h⟩ := cycle_clear hc i
    rw [h, if_pos hc, commit_regs]
  · obtain ⟨r, h⟩ := cycle_of_not_clear hc i
    rw [h, if_neg hc, enterFaulted_regs]

/-- `pc` moves exactly in a cycle that neither stalls nor faults (R19, R75, R88). -/
theorem cycle_pc (i : Instr) (s : State) :
    (cycle i s).pc = if Clear s ∧ ¬ LoadUse s then s.pc + 4 else s.pc := by
  by_cases hc : Clear s
  · obtain ⟨em1, mw1, m1, -, -, h⟩ := cycle_clear hc i
    simp only [h, commit_pc, stalled_iff, and_iff_right hc, ite_not]
  · obtain ⟨r, h⟩ := cycle_of_not_clear hc i
    rw [h, if_neg fun hn => hc hn.1, enterFaulted_pc]

/-- The run state after a cycle: the memory stage's ModelFault, else the execute stage's, else halted
by the halt that enters MW (R86, R88, R110). -/
theorem cycle_run (i : Instr) (s : State) :
    (cycle i s).run =
      if MisalignedNow s then .faulted .misalignedData
      else if UnresolvedNow s then .faulted .unresolvedLoadUse
      else if s.em.instr.name = .halt then .halted else s.run := by
  by_cases hm : MisalignedNow s
  · rw [cycle_of_misaligned hm, if_pos hm, enterFaulted_run]
  · by_cases hu : UnresolvedNow s
    · rw [cycle_of_unresolved hm hu, if_neg hm, if_pos hu, enterFaulted_run]
    · obtain ⟨em1, mw1, m1, hstage, -, h⟩ := cycle_clear ⟨hm, hu⟩ i
      obtain ⟨hinstr, -, -, -⟩ := memoryStage_ok hstage
      simp only [h, commit_run, hinstr, if_neg hm, if_neg hu]

theorem cycle_run_of_clear {s : State} (hc : Clear s) (i : Instr) :
    (cycle i s).run = if s.em.instr.name = .halt then .halted else s.run := by
  rw [cycle_run, if_neg hc.1, if_neg hc.2]

/-- FD in a clear cycle: held by a stall, else the injected instruction (R75, R76). -/
theorem cycle_fd {s : State} (hc : Clear s) (i : Instr) :
    (cycle i s).fd = if LoadUse s then s.fd else ⟨i⟩ := by
  obtain ⟨em1, mw1, m1, -, -, h⟩ := cycle_clear hc i
  simp only [h, commit_fd, stalled_iff]

/-- DE in a clear cycle: the bubble of a stall, else the decoded FD (R75, R77). -/
theorem cycle_de {s : State} (hc : Clear s) (i : Instr) :
    (cycle i s).de =
      if LoadUse s then .noop else decodeStage s.cfg s.fd.instr (writeback s.cfg s.regs s.mw) := by
  obtain ⟨em1, mw1, m1, -, -, h⟩ := cycle_clear hc i
  simp only [h, commit_de, stalled_iff]

theorem cycle_em_instr {s : State} (hc : Clear s) (i : Instr) : (cycle i s).em.instr = s.de.instr := by
  obtain ⟨em1, mw1, m1, -, he, h⟩ := cycle_clear hc i
  obtain ⟨opA, opB, -, -, rfl⟩ := execute_ok he
  rw [h, commit_em]

/-- MW and the data memory are what the memory stage answers (R84, R85). -/
theorem cycle_memoryStage {s : State} (hc : Clear s) (i : Instr) :
    memoryStage s.cfg s.em s.dmem = .ok ((cycle i s).mw, (cycle i s).dmem) := by
  obtain ⟨em1, mw1, m1, hm, -, h⟩ := cycle_clear hc i
  rw [h, commit_mw, commit_dmem, hm]

/-! ## What the memory stage answers for a load and for a store -/

theorem memRead_of_memoryStage {cfg : Config} {em : EMLatch} {m m1 : Memory} {mw1 : MWLatch}
    (h : memoryStage cfg em m = .ok (mw1, m1)) (hl : em.instr.name = .lw) :
    memRead cfg m em.alu = .ok mw1.mdata := by
  obtain ⟨r, e, -⟩ | ⟨v, -, hr, e⟩ | ⟨m2, hs, -, e⟩ | ⟨hn, -, e⟩ := memoryStage_cases cfg em m <;>
    cases e.symm.trans h
  · exact hr
  · rw [hl] at hs
    cases hs
  · exact absurd hl hn

theorem memWrite_of_memoryStage {cfg : Config} {em : EMLatch} {m m1 : Memory} {mw1 : MWLatch}
    (h : memoryStage cfg em m = .ok (mw1, m1)) (hs : em.instr.name = .sw) :
    memWrite cfg m em.alu em.wdata = .ok m1 := by
  obtain ⟨r, e, -⟩ | ⟨v, hl, -, e⟩ | ⟨m2, -, hw, e⟩ | ⟨-, hn, e⟩ := memoryStage_cases cfg em m <;>
    cases e.symm.trans h
  · rw [hs] at hl
    cases hl
  · exact hw
  · exact absurd hs hn

/-- A store changes no byte outside the word that it reaches (R40). -/
theorem readByte_memWrite_outside {cfg : Config} {m m1 : Memory} {ea v : Word} {off a : Nat}
    (hw : memWrite cfg m ea v = .ok m1) (hd : dataWordAt cfg ea = .ok (some off))
    (ha : a < off ∨ off + 4 ≤ a) : Memory.readByte m1 a = Memory.readByte m a := by
  cases hw.symm.trans (memWrite_of_reached hd m v)
  exact readByte_writeWord_outside cfg.byteOrder m v ha

/-- Two accesses that reach different words are four bytes apart or more, since both words are
aligned. -/
theorem memRead_writeWord_other {cfg : Config} {other : Word} {off : Nat} (hal : off % 4 = 0)
    (hne : dataWordAt cfg other ≠ .ok (some off)) (m : Memory) (v : Word) :
    memRead cfg (Memory.writeWord cfg.byteOrder m off v) other = memRead cfg m other := by
  cases ho : dataWordAt cfg other with
  | error r => rw [memRead_of_error ho, memRead_of_error ho]
  | ok reached =>
    cases reached with
    | none => rw [memRead_of_unreached ho, memRead_of_unreached ho]
    | some off' =>
      have hoff : off' ≠ off := fun e => hne (by rw [ho, e])
      have hal' := (dataWordAt_some ho).1
      rw [memRead_of_reached ho, memRead_of_reached ho,
        readWord_writeWord_other cfg.byteOrder m v (by omega)]

/-! ## The word placed at the program counter -/

theorem getElem?_placeWord (program : List Word) (k : Nat) (w : Word) :
    (placeWord program k w)[k]? = some w := by
  induction k generalizing program with
  | zero => cases program <;> rfl
  | succ k ih => cases program <;> exact ih _

/-! ## The statements about memory and faults -/

/-- Settles O13: a store reaches one word or none; `memRead_writeWord_other` for every other access. -/
theorem storedWordIsLoadedBack : Obligations.StoredWordIsLoadedBack := by
  intro cfg m m1 ea v hm hw
  refine ⟨fun hi ha => ?same, fun ho => ?outside, fun other hne => ?other⟩
  case same =>
    obtain ⟨off, hd⟩ : ∃ off, dataWordAt cfg ea = .ok (some off) := by
      by_cases hal : aligned cfg ea
      · exact ⟨_, dataWordAt_aligned hi hal⟩
      · exact ⟨_, dataWordAt_misaligned_truncate hi hal (ha.resolve_left hal)⟩
    cases hw.symm.trans (memWrite_of_reached hd m v)
    rw [memRead_of_reached hd, readWord_writeWord_same hm]
  case outside =>
    have hd := dataWordAt_outOfRange ho
    cases hw.symm.trans (memWrite_of_unreached hd m v)
    exact ⟨rfl, memRead_of_unreached hd m⟩
  case other =>
    cases hd : dataWordAt cfg ea with
    | error r => cases hw.symm.trans (memWrite_of_error hd m v)
    | ok reached =>
      cases reached with
      | none =>
        cases hw.symm.trans (memWrite_of_unreached hd m v)
        rfl
      | some off =>
        cases hw.symm.trans (memWrite_of_reached hd m v)
        exact memRead_writeWord_other (dataWordAt_some hd).1 (hd ▸ hne) m v

/-- Settles O24: `exec_of_misaligned`, `exec_of_unresolved`, and no cycle of a Faulted state. -/
theorem modelFaultCommitsNothing : Obligations.ModelFaultCommitsNothing := by
  refine ⟨fun i s _ hm => exec_of_misaligned hm i, fun i s _ hm hu => exec_of_unresolved hm hu i, ?_⟩
  intro s t r hr hstep
  cases hstep.symm.trans (step_faulted hr)

/-- Settles O25: the run state after a cycle is `cycle_run`. -/
theorem faultsOnlyInTheListedCases : Obligations.FaultsOnlyInTheListedCases := by
  intro i s hr
  refine ⟨cycle i s, exec_eq_cycle i s, ?_⟩
  rw [cycle_run, hr]
  by_cases hm : MisalignedNow s
  · rw [if_pos hm]
    refine ⟨iff_of_true rfl hm, iff_of_false (by simp) fun h => h.2 hm, fun hp => ?_⟩
    obtain ⟨-, -, -, hpolicy⟩ := hm
    exact absurd hpolicy hp
  · by_cases hu : UnresolvedNow s
    · rw [if_neg hm, if_pos hu]
      exact ⟨iff_of_false (by simp) hm, iff_of_true rfl ⟨hu, hm⟩, fun _ hp => absurd hu.2 hp⟩
    · rw [if_neg hm, if_neg hu]
      have hrun : ∀ r, (if s.em.instr.name = .halt then Run.halted else .running) ≠ .faulted r := by
        intro r
        split_ifs <;> simp
      exact ⟨iff_of_false (hrun _) hm, iff_of_false (hrun _) fun h => hu h.1, fun _ _ => hrun⟩

/-! ## The statements about one step -/

/-- Settles O17: `step_running` with what the cycle driver injects; the placed word is the one at
`pc`. -/
theorem stepRunsTheFetchedInstruction : Obligations.StepRunsTheFetchedInstruction := by
  refine ⟨fun s w hr hw => ?word, fun s hr hn => ?exhausted, fun s nbits w => ?placed⟩
  case word => rw [step_running hr, inject_of_getElem? hw]
  case exhausted => rw [step_running hr, inject_exhausted (List.getElem?_eq_none_iff.mp hn)]
  case placed =>
    rw [step_running (withFetchWord_run s nbits w), inject_of_getElem? (getElem?_placeWord _ _ _)]
    rfl

/-- Settles O26: the run state by `cycle_run_of_clear`, and a Halted machine keeps its state. -/
theorem haltInMWEndsTheRun : Obligations.HaltInMWEndsTheRun := by
  intro i s hr hc
  refine ⟨cycle i s, exec_eq_cycle i s, cycle_cycles i s, fun hh => ?_, fun hh => ?_⟩
  · have hrun : (cycle i s).run = .halted := by rw [cycle_run_of_clear hc, if_pos hh]
    exact ⟨hrun, step_halted hrun⟩
  · rw [cycle_run_of_clear hc, if_neg hh, hr]

/-- Settles O28: `cycle_pc`; a Halted machine keeps its `pc`. -/
theorem pcOnlyHoldsOrAdvances : Obligations.PcOnlyHoldsOrAdvances := by
  intro s t hstep
  obtain ⟨hr, rfl⟩ | ⟨hh, rfl⟩ := step_next hstep
  · rw [cycle_pc]
    exact ⟨fun h => if_pos h.2, fun h => if_neg fun hn => h ⟨hr, hn⟩⟩
  · exact ⟨fun h => by simp [hh] at h, fun _ => rfl⟩

/-- Settles O29: the registers by write-back, the bytes by what the memory stage writes. -/
theorem cycleFrame : Obligations.CycleFrame := by
  intro i s _ hc
  have hstage := cycle_memoryStage hc i
  obtain ⟨-, -, -, hkept⟩ := memoryStage_ok hstage
  refine ⟨cycle i s, exec_eq_cycle i s, fun q hq => ?registers, fun hn a => ?noStore,
    fun hs hd a => ?dropped, fun off hs hd a ha => ?stored, cycle_program i s, cycle_cfg i s⟩
  case registers => rw [cycle_regs, if_pos hc, getElem_writeback_other hq]
  case noStore => rw [hkept hn]
  case dropped =>
    have hw := memWrite_of_memoryStage hstage hs
    rw [Except.ok.inj (hw.symm.trans (memWrite_of_unreached hd s.dmem s.em.wdata))]
  case stored => exact readByte_memWrite_outside (memWrite_of_memoryStage hstage hs) hd ha

/-- Settles O30: `cycle_program` and `cycle_cfg`. -/
theorem launchConstantsNeverChange : Obligations.LaunchConstantsNeverChange := by
  intro s t hstep
  obtain ⟨-, rfl⟩ | ⟨-, rfl⟩ := step_next hstep
  · exact ⟨cycle_program _ s, cycle_cfg _ s⟩
  · exact ⟨rfl, rfl⟩

/-- Only a cycle that finds a load-use and does not fault counts a stall (R32). -/
theorem step_stalls {s t : State} (h : step s = .next t) (hs : t.stalls = s.stalls + 1) :
    Clear s ∧ LoadUse s ∧ t = cycle (inject s) s := by
  obtain ⟨-, rfl⟩ | ⟨-, rfl⟩ := step_next h
  · rw [cycle_stalls] at hs
    by_cases hcl : Clear s ∧ LoadUse s
    · exact ⟨hcl.1, hcl.2, rfl⟩
    · rw [if_neg hcl] at hs
      omega
  · omega

/-- Settles O31: a stall leaves a bubble in DE, which stalls nothing, and holds FD. -/
theorem noTwoStallsInARow : Obligations.NoTwoStallsInARow := by
  intro s t u hst hstalls htu
  obtain ⟨hc, hl, ht⟩ := step_stalls hst hstalls
  have hde : t.de = .noop := by rw [ht, cycle_de hc, if_pos hl]
  have hfd : t.fd = s.fd := by rw [ht, cycle_fd hc, if_pos hl]
  have hnot : ¬ LoadUse t := fun hn => by simp [LoadUse, hde, Instr.name] at hn
  obtain ⟨-, rfl⟩ | ⟨hh, rfl⟩ := step_next htu
  · refine ⟨?_, fun _ hct => ?_⟩
    · rw [cycle_stalls, if_neg fun hn => hnot hn.2, Nat.add_zero]
    · rw [cycle_de hct, if_neg hnot, decodeStage_instr, hfd]
  · exact ⟨rfl, fun hr => by simp [hh] at hr⟩

/-! ## The statements about register 0 -/

/-- A hard-wired register 0 reads 0 (R17). -/
theorem readReg_hardwired_zero {cfg : Config} (h : cfg.r0Hardwired = true) (x : Regs) :
    readReg cfg x 0 = 0 := if_pos ⟨h, rfl⟩

/-- Settles O32: `wreg_ne_zero` for the write, and R17 and R74 for the reads and the stall. -/
theorem hardwiredRegister0IsConstant : Obligations.HardwiredRegister0IsConstant := by
  intro i s _ h0
  refine ⟨wreg_ne_zero h0, cycle i s, exec_eq_cycle i s, ?kept, fun hrt => ?noStall,
    fun hc hl => ?reads⟩
  case kept =>
    rw [cycle_regs]
    split_ifs
    · exact getElem_writeback_other (wreg_ne_zero h0 s.mw.instr)
    · rfl
  case noStall =>
    have hl : ¬ LoadUse s := fun ⟨_, hguard, _⟩ => hguard ⟨h0, hrt⟩
    rw [cycle_stalls, if_neg fun hn => hl hn.2, Nat.add_zero]
  case reads =>
    rw [cycle_de hc, if_neg hl, decodeStage_readA, decodeStage_readB]
    exact ⟨fun hrs => by rw [hrs, readReg_hardwired_zero h0],
      fun hrt => by rw [hrt, readReg_hardwired_zero h0]⟩

/-- Settles O33: `wreg` names an ordinary register 0, and the decode stage reads after write-back. -/
theorem ordinaryRegister0IsWritten : Obligations.OrdinaryRegister0IsWritten := by
  intro i s _ hc h0 hd
  have hw : wreg s.cfg s.mw.instr = some 0 := by simp [wreg, hd, h0]
  refine ⟨cycle i s, exec_eq_cycle i s, ?_, fun hl hrs => ?_⟩
  · rw [cycle_regs, if_pos hc]
    exact getElem_writeback_same hw
  · rw [cycle_de hc, if_neg hl, decodeStage_readA, hrs, readReg_writeback_same hw]

/-! ## The statement about the signals -/

/-- Settles O34: the fetch signals by the program at `pc`, the data signals by what the memory stage
answers, `halted` by `cycle_run_of_clear`. -/
theorem signalsDescribeTheCycle : Obligations.SignalsDescribeTheCycle := by
  intro s hr hc
  have hstage := cycle_memoryStage hc (inject s)
  obtain ⟨-, halu, -, hkept⟩ := memoryStage_ok hstage
  refine ⟨cycle (inject s) s, by rw [step_running hr, exec_eq_cycle], fun w hw hl => ?fetched, ?valid,
    ?index, fun hre => ?read, fun hwe => ?write, fun hwe => ?kept, ?halted⟩
  case fetched => rw [cycle_fd hc, if_neg hl, inject_of_getElem? hw]
  case valid => simp [signals, ← Option.isSome_iff_exists]
  case index =>
    simp only [signals, BitVec.extractLsb'_toNat, Nat.shiftRight_eq_div_pow]
    omega
  case read =>
    have hlw : s.em.instr.name = .lw := by simpa [signals] using hre
    simp [signals, hlw, halu, memRead_of_memoryStage hstage hlw]
  case write =>
    have hsw : s.em.instr.name = .sw := by simpa [signals] using hwe
    exact ⟨memWrite_of_memoryStage hstage hsw, by simp [signals, hsw]⟩
  case kept => exact hkept (by simpa [signals] using hwe)
  case halted => simp [signals, cycle_run_of_clear hc, hr]

end Sys2Proof.Machine
end

section
/-! PROOFS of the completion statements (41_register_alu to 45_special): an instruction that travels the
pipeline alone is followed from cycle to cycle; what it leaves is its sequential execution. -/

namespace Sys2Proof.Machine

open Sys2Proof.Safety

/-! ## Sequential execution, as the stages of the pipeline -/

/-- The EM latch of an instruction on the current values of its registers (R77, R83). -/
def currentLatch (cfg : Config) (i : Instr) (x : Regs) : EMLatch where
  instr := i
  alu := aluResult i (readReg cfg x i.rs) (readReg cfg x i.rt)
  wdata := if i.name = .sw then readReg cfg x i.rt else 0

/-- `seqStep` is the memory stage on that latch, then write-back. -/
theorem seqStep_of_memoryStage {cfg : Config} {i : Instr} {x : Regs} {m m1 : Memory} {mw1 : MWLatch}
    (h : memoryStage cfg (currentLatch cfg i x) m = .ok (mw1, m1)) :
    seqStep cfg i x m = .ok (writeback cfg x mw1, m1) := by
  rw [currentLatch] at h
  simp only [seqStep, h]

/-- The store data of a fresh read does not depend on `FORWARD_STORE_DATA` (R80). -/
theorem storeData_decodeStage (cfg : Config) (i : Instr) (x : Regs) :
    storeData cfg (decodeStage cfg i x) (readReg cfg x i.rt) = (currentLatch cfg i x).wdata := by
  simp only [storeData, currentLatch, decodeStage_instr, decodeStage_readB, ite_self]

/-- With no producer in EM and MW, an instruction executes on the values it read (R79, R80). -/
theorem execute_decodeStage (cfg : Config) (i : Instr) (x : Regs) :
    execute cfg (decodeStage cfg i x) .noop .noop = .ok (currentLatch cfg i x) := by
  have hsel : ∀ used src, resolvedSelect cfg used src .noop .noop = .ok .none := fun _ _ => rfl
  simp only [execute, operandA, operandB, hsel, forwarded, decodeStage_instr, decodeStage_readA,
    decodeStage_readB, storeData_decodeStage]
  rfl

/-- A no-memory instruction passes the memory stage (R84). -/
theorem memoryStage_of_no_access {em : EMLatch} (hl : em.instr.name ≠ .lw) (hs : em.instr.name ≠ .sw)
    (cfg : Config) (m : Memory) : memoryStage cfg em m = .ok (⟨em.instr, em.alu, 0⟩, m) := by
  simp only [memoryStage, if_neg hl, if_neg hs]

theorem commitValue_of_ne_lw {mw : MWLatch} (h : mw.instr.name ≠ .lw) : commitValue mw = mw.alu :=
  if_neg h

theorem memoryStage_lw {cfg : Config} {em : EMLatch} {m : Memory} {v : Word}
    (hl : em.instr.name = .lw) (hr : memRead cfg m em.alu = .ok v) :
    memoryStage cfg em m = .ok (⟨em.instr, em.alu, v⟩, m) := by simp only [memoryStage, if_pos hl, hr]

theorem memoryStage_sw {cfg : Config} {em : EMLatch} {m m1 : Memory} (hs : em.instr.name = .sw)
    (hw : memWrite cfg m em.alu em.wdata = .ok m1) :
    memoryStage cfg em m = .ok (⟨em.instr, em.alu, 0⟩, m1) := by
  have hl : em.instr.name ≠ .lw := by simp [hs]
  simp only [memoryStage, if_neg hl, if_pos hs, hw]

/-! ## The states of a lone instruction, cycle by cycle -/

/-- The stall that a lone instruction causes: the noop behind it names register 0 (R74, R124). -/
def soloStalls (cfg : Config) (i : Instr) : Nat := if hazard cfg .noop i then 1 else 0

/-- `pc` once `n` cycles have advanced it (R19, R76). -/
def pcAfter (s : State) (n : Nat) : Word := s.pc + BitVec.ofNat 32 (4 * n)

theorem pcAfter_add_four (s : State) (n : Nat) : pcAfter s n + 4 = pcAfter s (n + 1) := by
  rw [pcAfter, pcAfter, BitVec.add_assoc, Nat.mul_add, BitVec.ofNat_add]
  rfl

/-- After the first cycle: in FD. -/
def fetchedAlone (i : Instr) (s : State) : State :=
  { s with
    pc := pcAfter s 1, fd := ⟨i⟩, de := decodeStage s.cfg .noop s.regs, em := .noop,
    mw := ⟨.noop, s.em.alu, 0⟩, cycles := s.cycles + 1 }

/-- After the second cycle: in DE. -/
def decodedAlone (i : Instr) (s : State) : State :=
  { s with
    pc := pcAfter s 2, fd := .noop, de := decodeStage s.cfg i s.regs, em := .noop, mw := .noop,
    cycles := s.cycles + 2 }

/-- After the third cycle: in EM, with the noop behind it held in FD when it stalls. -/
def executedAlone (i : Instr) (s : State) : State :=
  { s with
    pc := pcAfter s (3 - soloStalls s.cfg i), fd := .noop,
    de := if hazard s.cfg .noop i then .noop else decodeStage s.cfg .noop s.regs,
    em := currentLatch s.cfg i s.regs, mw := .noop,
    cycles := s.cycles + 3, stalls := s.stalls + soloStalls s.cfg i }

/-- After the fourth cycle: in MW, as the memory stage answers. -/
def accessedAlone (i : Instr) (s : State) (mw1 : MWLatch) (m1 : Memory) : State :=
  { s with
    dmem := m1, pc := pcAfter s (4 - soloStalls s.cfg i), fd := .noop,
    de := decodeStage s.cfg .noop s.regs, em := .noop, mw := mw1,
    run := if i.name = .halt then .halted else .running,
    cycles := s.cycles + 4, stalls := s.stalls + soloStalls s.cfg i }

theorem soloStalls_le (cfg : Config) (i : Instr) : soloStalls cfg i ≤ 1 := by
  rw [soloStalls]
  split <;> omega

/-- Only a lw stalls (R74). -/
theorem soloStalls_of_ne_lw {i : Instr} (h : i.name ≠ .lw) (cfg : Config) : soloStalls cfg i = 0 := by
  rw [soloStalls, hazard, if_pos h]
  rfl

theorem soloStalls_lw (cfg : Config) (rs rt : Field5) (imm16 : Imm16) :
    soloStalls cfg (.lw rs rt imm16) = loneStall cfg rt := by
  have hl : ¬ (Instr.lw rs rt imm16).name ≠ .lw := by simp [Instr.name]
  have hnoop : wreg cfg .noop = none := rfl
  rw [soloStalls, loneStall, hazard, if_neg hl, hnoop]
  by_cases hrt : rt = 0#5
  · cases h0 : cfg.r0Hardwired <;> simp [Instr.rs, Instr.rt, hrt]
  · have hrt' : ¬ 0#5 = rt := Ne.symm hrt
    simp [Instr.rs, Instr.rt, hrt, hrt']

/-! ## Each cycle takes one state to the next -/

/-- A running machine steps to the state that its cycle leaves. -/
theorem step_of_inject {i : Instr} {s : State} (h : s.run = .running) (hi : inject s = i) :
    step s = .next (cycle i s) := by rw [step_running h, hi, exec_eq_cycle]

theorem cycle_drained {s : State} (h : Drained s) (i : Instr) : cycle i s = fetchedAlone i s := by
  obtain ⟨regs, dmem, pc, ⟨fd⟩, ⟨de, a, b⟩, ⟨em, alu, wdata⟩, ⟨mw, walu, mdata⟩, run, cycles, stalls,
    program, cfg⟩ := s
  obtain ⟨hr, hfd, hde, hem, hmw⟩ := h
  cases hr; cases hfd; cases hde; cases hem; cases hmw
  rw [cycle_eq_commit rfl (execute_noop cfg a b _ _)]
  rfl

theorem cycle_fetchedAlone (i : Instr) (s : State) :
    cycle .noop (fetchedAlone i s) = decodedAlone i s := by
  rw [cycle_eq_commit rfl (execute_noop s.cfg _ _ _ _), decodedAlone, ← pcAfter_add_four]
  rfl

theorem cycle_decodedAlone (i : Instr) (s : State) :
    cycle .noop (decodedAlone i s) = executedAlone i s := by
  have hst : stalled (decodedAlone i s) = hazard s.cfg .noop i := rfl
  rw [cycle_eq_commit rfl (execute_decodeStage s.cfg i s.regs), commit, hst, executedAlone, soloStalls]
  cases hazard s.cfg .noop i with
  | true => rfl
  | false =>
    simp only [Bool.false_eq_true, if_false, Nat.sub_zero, ← pcAfter_add_four s 2]
    rfl

section
variable {i : Instr} {s : State} {mw1 : MWLatch} {m1 : Memory}

theorem cycle_executedAlone (hr : s.run = .running)
    (hm : memoryStage s.cfg (currentLatch s.cfg i s.regs) s.dmem = .ok (mw1, m1)) :
    cycle .noop (executedAlone i s) = accessedAlone i s mw1 m1 := by
  have he : execute s.cfg (executedAlone i s).de (executedAlone i s).em (executedAlone i s).mw =
      .ok .noop := by
    rw [executedAlone]
    cases hazard s.cfg .noop i <;> exact execute_noop s.cfg _ _ _ _
  have hst : stalled (executedAlone i s) = false := by
    rw [stalled, executedAlone]
    cases hazard s.cfg .noop i <;> rfl
  have hi : mw1.instr.name = i.name := congrArg Instr.name (memoryStage_ok hm).1
  have hrun : (executedAlone i s).run = .running := hr
  have hpc : 4 - soloStalls s.cfg i = 3 - soloStalls s.cfg i + 1 := by
    have hle := soloStalls_le s.cfg i
    omega
  rw [cycle_eq_commit hm he, commit, hst, hi, hrun, accessedAlone, hpc, ← pcAfter_add_four]
  rfl

theorem cycle_accessedAlone (hr : s.run = .running) (hh : i.name ≠ .halt) :
    cycle .noop (accessedAlone i s mw1 m1) =
      retired s (writeback s.cfg s.regs mw1) m1 (soloStalls s.cfg i) := by
  have hst : stalled (accessedAlone i s mw1 m1) = false := rfl
  have hpc : 20 - 4 * soloStalls s.cfg i = 4 * (4 - soloStalls s.cfg i + 1) := by
    have hle := soloStalls_le s.cfg i
    omega
  rw [cycle_eq_commit rfl (execute_noop s.cfg _ _ _ _), commit, hst, retired, hpc, ← pcAfter,
    ← pcAfter_add_four, accessedAlone, if_neg hh, hr]
  rfl

/-! ## The run of a lone instruction -/

/-- The next four words inject noop. -/
theorem inject_pcAfter (h : IdleAfter s) {n : Nat} (h1 : 1 ≤ n) (h4 : n ≤ 4) :
    inject { s with pc := pcAfter s n } = .noop := by
  obtain ⟨hone, htwo, hthree, hfour⟩ := h
  interval_cases n
  · exact hone
  · exact htwo
  · exact hthree
  · exact hfour

/-- The second and the third cycle. -/
theorem run_fetchedAlone (h : Alone s) (i : Instr) (k : Nat) :
    Host.Core.run core (k + 2) (fetchedAlone i s) = Host.Core.run core k (executedAlone i s) := by
  obtain ⟨⟨hr, -⟩, hidle⟩ := h
  have hrunF : (fetchedAlone i s).run = .running := hr
  have hrunD : (decodedAlone i s).run = .running := hr
  have hfetched : step (fetchedAlone i s) = .next (decodedAlone i s) := by
    have hinj : inject (fetchedAlone i s) = .noop := inject_pcAfter hidle (n := 1) (by omega) (by omega)
    rw [step_of_inject hrunF hinj, cycle_fetchedAlone]
  have hdecoded : step (decodedAlone i s) = .next (executedAlone i s) := by
    have hinj : inject (decodedAlone i s) = .noop := inject_pcAfter hidle (n := 2) (by omega) (by omega)
    rw [step_of_inject hrunD hinj, cycle_decodedAlone]
  rw [run_step hfetched, run_step hdecoded]

/-- The fourth cycle, when the memory stage answers. -/
theorem step_executedAlone (h : Alone s)
    (hm : memoryStage s.cfg (currentLatch s.cfg i s.regs) s.dmem = .ok (mw1, m1)) :
    step (executedAlone i s) = .next (accessedAlone i s mw1 m1) := by
  obtain ⟨⟨hr, -⟩, hidle⟩ := h
  have hle := soloStalls_le s.cfg i
  have hinj : inject (executedAlone i s) = .noop := inject_pcAfter hidle (by omega) (by omega)
  have hrun : (executedAlone i s).run = .running := hr
  rw [step_of_inject hrun hinj, cycle_executedAlone hr hm]

/-- A lone instruction that the memory stage answers completes in five cycles; it leaves the registers
and the memory that `seqStep` leaves (`seqStep_of_memoryStage`). -/
theorem alone_completes (h : Alone s) (hh : i.name ≠ .halt)
    (hm : memoryStage s.cfg (currentLatch s.cfg i s.regs) s.dmem = .ok (mw1, m1)) :
    afterFive i s (retired s (writeback s.cfg s.regs mw1) m1 (soloStalls s.cfg i)) := by
  have hr : s.run = .running := h.1.1
  have hle := soloStalls_le s.cfg i
  have haccessed : step (accessedAlone i s mw1 m1) =
      .next (retired s (writeback s.cfg s.regs mw1) m1 (soloStalls s.cfg i)) := by
    have hinj : inject (accessedAlone i s mw1 m1) = .noop := inject_pcAfter h.2 (by omega) (by omega)
    rw [step_of_inject (if_neg hh) hinj, cycle_accessedAlone hr hh]
  refine ⟨fetchedAlone i s, by rw [exec_eq_cycle, cycle_drained h.1], ?_⟩
  rw [run_fetchedAlone h, run_step (step_executedAlone h hm), run_step haccessed]
  rfl

/-- A lone instruction that makes no access writes its result to its destination (R70, R83). -/
theorem alone_writes_result (h : Alone s) {r : Field5} (hd : destField i = some r)
    (hl : i.name ≠ .lw) :
    afterFive i s (retired s (writeReg s.cfg s.regs r
      (aluResult i (readReg s.cfg s.regs i.rs) (readReg s.cfg s.regs i.rt))) s.dmem 0) := by
  have hh : i.name ≠ .halt := fun hn => by cases i <;> cases hn; cases hd
  have hs : i.name ≠ .sw := fun hn => by cases i <;> cases hn; cases hd
  have hdone := alone_completes h hh
    (memoryStage_of_no_access (em := currentLatch s.cfg i s.regs) hl hs s.cfg s.dmem)
  rwa [soloStalls_of_ne_lw hl, writeback_of_destField hd, commitValue_of_ne_lw hl] at hdone

/-- A lone instruction with no destination and no access changes nothing (R101, R103, R105). -/
theorem alone_writes_nothing (h : Alone s) (hz : ZeroResult i) (hh : i.name ≠ .halt) :
    afterFive i s (retired s s.regs s.dmem 0) := by
  have hl : i.name ≠ .lw := fun hn => by simp [ZeroResult, hn] at hz
  have hs : i.name ≠ .sw := fun hn => by simp [ZeroResult, hn] at hz
  have hd : destField i = none := by
    cases i with
    | noop | halt | unknownR | sw | bne | unknownI => rfl
    | add | sub | sll | lw | andi | ori => simp [ZeroResult, Instr.name] at hz
  have hdone := alone_completes h hh
    (memoryStage_of_no_access (em := currentLatch s.cfg i s.regs) hl hs s.cfg s.dmem)
  rwa [soloStalls_of_ne_lw hl, writeback_of_no_destField hd] at hdone

/-- A lone load writes the word that its read answers (R97). -/
theorem alone_loads {rs rt : Field5} {imm16 : Imm16} {v : Word} (h : Alone s)
    (hr : memRead s.cfg s.dmem (readReg s.cfg s.regs rs + imm16.signExtend 32) = .ok v) :
    afterFive (.lw rs rt imm16) s
      (retired s (writeReg s.cfg s.regs rt v) s.dmem (loneStall s.cfg rt)) := by
  have hread : memRead s.cfg s.dmem (currentLatch s.cfg (.lw rs rt imm16) s.regs).alu = .ok v := hr
  have hdone := alone_completes h (by simp [Instr.name]) (memoryStage_lw rfl hread)
  rwa [soloStalls_lw, writeback_of_destField rfl] at hdone

/-- A lone store leaves the memory that its write answers (R98). -/
theorem alone_stores {rs rt : Field5} {imm16 : Imm16} (h : Alone s)
    (hw : memWrite s.cfg s.dmem (readReg s.cfg s.regs rs + imm16.signExtend 32)
      (readReg s.cfg s.regs rt) = .ok m1) :
    afterFive (.sw rs rt imm16) s (retired s s.regs m1 0) := by
  have hwrite : memWrite s.cfg s.dmem (currentLatch s.cfg (.sw rs rt imm16) s.regs).alu
      (currentLatch s.cfg (.sw rs rt imm16) s.regs).wdata = .ok m1 := hw
  have hdone := alone_completes h (by simp [Instr.name]) (memoryStage_sw rfl hwrite)
  rwa [soloStalls_of_ne_lw (by simp [Instr.name]), writeback_of_no_destField rfl] at hdone

end

/-! ## The statements -/

/-- Settles O35: `alone_writes_result`, the destination being `rd`. -/
theorem registerAluInstructionsComplete : Obligations.RegisterAluInstructionsComplete := by
  intro s rs rt rd shamt h a b done
  exact ⟨alone_writes_result (i := .add rs rt rd shamt) h rfl (by simp [Instr.name]),
    alone_writes_result (i := .sub rs rt rd shamt) h rfl (by simp [Instr.name]),
    alone_writes_result (i := .sll rs rt rd shamt) h rfl (by simp [Instr.name])⟩

/-- Settles O36: `alone_writes_result`, the destination being `rt`. -/
theorem immediateLogicInstructionsComplete : Obligations.ImmediateLogicInstructionsComplete := by
  intro s rs rt imm16 h a done
  exact ⟨alone_writes_result (i := .andi rs rt imm16) h rfl (by simp [Instr.name]),
    alone_writes_result (i := .ori rs rt imm16) h rfl (by simp [Instr.name])⟩

/-- Settles O37: `alone_loads` with what the read answers in each case of range, alignment and
policy. -/
theorem loadCompletes : Obligations.LoadCompletes := by
  intro s rs rt imm16 h off word completes
  refine ⟨fun ho => alone_loads h (memRead_of_unreached ?outside _),
    fun hi ha => alone_loads h (memRead_of_reached ?aligned _),
    fun hi ha hp => alone_loads h (memRead_of_reached ?truncate _),
    fun hi ha hp => alone_loads h (memRead_of_unreached ?outOfRange _)⟩
  case outside => exact dataWordAt_outOfRange (Nat.not_lt.mpr ho)
  case aligned => exact dataWordAt_aligned hi ha
  case truncate => exact dataWordAt_misaligned_truncate hi ha hp
  case outOfRange => exact dataWordAt_misaligned_outOfRange hi ha hp

/-- Settles O38: `alone_stores` with what the write answers in each case of range, alignment and
policy, and the frame and the read-back of a word write. -/
theorem storeCompletes : Obligations.StoreCompletes := by
  intro s rs rt imm16 h ea off v completes stores
  have reaches {base : Nat} (hd : dataWordAt s.cfg ea = .ok (some base)) : stores base :=
    ⟨alone_stores h (memWrite_of_reached hd _ _), hd,
      fun _ ha => readByte_writeWord_outside _ _ _ ha, fun hm => readWord_writeWord_same hm _ _ _⟩
  have drops (hd : dataWordAt s.cfg ea = .ok none) : completes s.dmem :=
    alone_stores h (memWrite_of_unreached hd _ _)
  exact ⟨fun ho => drops (dataWordAt_outOfRange (Nat.not_lt.mpr ho)),
    fun hi ha => reaches (dataWordAt_aligned hi ha),
    fun hi ha hp => reaches (dataWordAt_misaligned_truncate hi ha hp),
    fun hi ha hp => drops (dataWordAt_misaligned_outOfRange hi ha hp)⟩

/-- Settles O39: `alone_writes_nothing`. -/
theorem noEffectInstructionsComplete : Obligations.NoEffectInstructionsComplete := by
  intro s rs rt rd shamt func opcode imm16 h done
  have completes {i : Instr} (hz : ZeroResult i) (hh : i.name ≠ .halt) : afterFive i s done :=
    alone_writes_nothing h hz hh
  exact ⟨completes (.inl rfl) (by simp [Instr.name]),
    completes (.inr (.inr (.inl rfl))) (by simp [Instr.name]),
    completes (.inr (.inr (.inr rfl))) (by simp [Instr.name]),
    completes (.inr (.inr (.inr rfl))) (by simp [Instr.name])⟩

/-- Settles O40: the fourth cycle of a lone halt is the state `accessedAlone`. -/
theorem haltCompletes : Obligations.HaltCompletes := by
  intro s h
  refine ⟨fetchedAlone .halt s, by rw [exec_eq_cycle, cycle_drained h.1], ?_⟩
  have hm : memoryStage s.cfg (currentLatch s.cfg .halt s.regs) s.dmem = .ok (⟨.halt, 0, 0⟩, s.dmem) :=
    rfl
  rw [run_fetchedAlone h, run_step (step_executedAlone h hm)]
  rfl

/-- Settles O41: the fourth cycle finds a misaligned access in EM. -/
theorem loneMisalignedAccessFaults : Obligations.LoneMisalignedAccessFaults := by
  intro s rs rt imm16 h off hi ha hp i hname
  have hmis : MisalignedNow (executedAlone i s) := by
    obtain rfl | rfl := hname
    · exact ⟨.inl rfl, hi, ha, hp⟩
    · exact ⟨.inr rfl, hi, ha, hp⟩
  have hstep : step (executedAlone i s) = .next (enterFaulted .misalignedData (executedAlone i s)) := by
    have hrun : (executedAlone i s).run = .running := h.1.1
    rw [step_of_inject hrun rfl, cycle_of_misaligned hmis]
  refine ⟨fetchedAlone i s, enterFaulted .misalignedData (executedAlone i s),
    by rw [exec_eq_cycle, cycle_drained h.1], ?_, rfl, rfl, rfl, rfl⟩
  rw [run_fetchedAlone h, run_step hstep]
  rfl

end Sys2Proof.Machine
end

section
/-! PROOFS of operand correctness and of the refinement of sequential execution (40_pipeline section 12,
20_memory section 5). -/

namespace Sys2Proof.Machine

open Sys2Proof.Safety

/-! ## Operands are current once EM and MW are written back -/

/-- A near-first operand is the register's value after MW and EM are written back, when the read was
current and no lw in EM loads the register (R79, R80). -/
theorem nearFirst_eq_readReg {s : State} {src : Field5} {mw1 : MWLatch}
    (hn : s.em.instr.name = .lw → wreg s.cfg s.em.instr ≠ some src)
    (hinstr : mw1.instr = s.em.instr) (halu : mw1.alu = s.em.alu) :
    nearFirst s src (readReg s.cfg s.regs src) =
      readReg s.cfg (writeback s.cfg (writeback s.cfg s.regs s.mw) mw1) src := by
  by_cases hnear : wreg s.cfg s.em.instr = some src
  · have hl : mw1.instr.name ≠ .lw := fun hl => hn (hinstr ▸ hl) hnear
    rw [nearFirst, if_pos hnear, readReg_writeback_same (hinstr ▸ hnear), commitValue_of_ne_lw hl, halu]
  · rw [nearFirst_of_no_near hnear, readReg_writeback_other (hinstr ▸ hnear)]
    by_cases hfar : wreg s.cfg s.mw.instr = some src
    · rw [farOnly, if_pos hfar, readReg_writeback_same hfar, commitValue]
    · rw [farOnly, if_neg hfar, readReg_writeback_other hfar]

/-- A cycle with current reads and no near-load executes on the values that its registers have once
MW and EM are written back. -/
theorem cycle_executes_current {s : State}
    (hde : s.de = .noop ∨ s.de = decodeStage s.cfg s.de.instr s.regs) (hc : Clear s)
    (hn : ¬ NearLoadNow s) (i : Instr) :
    let x := writeback s.cfg (cycle i s).regs (cycle i s).mw
    Executed s.cfg s.de.instr (readReg s.cfg x s.de.instr.rs) (readReg s.cfg x s.de.instr.rt)
      s.de.readB (cycle i s).em := by
  intro x
  obtain ⟨hinstr, halu, -, -⟩ := memoryStage_ok (cycle_memoryStage hc i)
  have hx : x = writeback s.cfg (writeback s.cfg s.regs s.mw) (cycle i s).mw := by
    rw [← if_pos (c := Clear s) hc (t := writeback s.cfg s.regs s.mw), ← cycle_regs i s]
  obtain ⟨t, hexec, h⟩ := exec_executes_nearFirst hc (fun h => absurd h hn) i
  cases (exec_eq_cycle i s).symm.trans hexec
  obtain hbubble | hread := hde
  · rw [hbubble] at h ⊢
    exact h
  · have hA : s.de.readA = readReg s.cfg s.regs s.de.instr.rs := by rw [hread]; rfl
    have hB : s.de.readB = readReg s.cfg s.regs s.de.instr.rt := by rw [hread]; rfl
    rw [hx]
    refine executed_congr (fun hu => ?_) (fun hu => ?_) h
    · rw [hA]
      exact nearFirst_eq_readReg (fun hl hw => hn ⟨hl, .inl ⟨hu, hw⟩⟩) hinstr halu
    · rw [hB]
      exact nearFirst_eq_readReg (fun hl hw => hn ⟨hl, .inr ⟨hu, hw⟩⟩) hinstr halu

/-- The rules of the instructions are what `aluResult` collects (R83). -/
theorem alu_of_executed {cfg : Config} {i : Instr} {a b read : Word} {e : EMLatch}
    (h : Executed cfg i a b read e) : e.alu = aluResult i a b := by
  obtain ⟨-, hi⟩ := h
  cases i <;> exact hi.1

/-- The write-data slot of a sw is its operand when store data is forwarded (R80). -/
theorem wdata_of_executed_sw {cfg : Config} {i : Instr} {a b read : Word} {e : EMLatch}
    (h : Executed cfg i a b read e) (hs : i.name = .sw) (hf : cfg.forwardStoreData = true) :
    e.wdata = b := by
  obtain ⟨-, hi⟩ := h
  cases i <;> cases hs
  exact hi.2.trans (if_pos hf)

/-- Settles O44: `cycle_executes_current`, whose premise on the reads is a clause of the invariant. -/
theorem operandsAreTheValuesProducersCommit : Obligations.OperandsAreTheValuesProducersCommit := by
  intro i s hinv _ hc hn
  have h := cycle_executes_current hinv.decodeReads hc hn i
  exact ⟨cycle i s, exec_eq_cycle i s, alu_of_executed h, wdata_of_executed_sw h⟩

/-- An instruction executed on the values of `x` leaves the latch on those values, when store data is
forwarded. -/
theorem eq_currentLatch_of_executed {cfg : Config} {i : Instr} {x : Regs} {read : Word} {e : EMLatch}
    (hf : cfg.forwardStoreData = true)
    (h : Executed cfg i (readReg cfg x i.rs) (readReg cfg x i.rt) read e) :
    e = currentLatch cfg i x := by
  have halu := alu_of_executed h
  have hwdata : e.wdata = if i.name = .sw then readReg cfg x i.rt else 0 := by
    by_cases hs : i.name = .sw
    · rw [if_pos hs, wdata_of_executed_sw h hs hf]
    · rw [if_neg hs]
      cases i with
      | sw => exact absurd rfl hs
      | _ => exact h.2.2
  obtain ⟨instr, alu, wdata⟩ := e
  rw [currentLatch, EMLatch.mk.injEq]
  exact ⟨h.1, halu, hwdata⟩

/-! ## Programs as lists of instructions -/

/-- Instructions executed by themselves, one after another. -/
def seqInstrs (cfg : Config) : List Instr → Regs → Memory → Except Fault (Regs × Memory)
  | [], x, m => .ok (x, m)
  | i :: rest, x, m =>
    match seqStep cfg i x m with
    | .error r => .error r
    | .ok (x1, m1) => seqInstrs cfg rest x1 m1

/-- The instructions that do something: stall bubbles and the noops of reset are left out. -/
def work (l : List Instr) : List Instr := l.filter (· ≠ .noop)

section
variable (cfg : Config)

theorem seqRun_eq_seqInstrs (program : List Word) (x : Regs) (m : Memory) :
    seqRun cfg program x m = seqInstrs cfg (program.map (decode cfg)) x m := by
  induction program generalizing x m with
  | nil => rfl
  | cons w rest ih =>
    simp only [seqRun, List.map_cons, seqInstrs]
    cases seqStep cfg (decode cfg w) x m with
    | error r => rfl
    | ok p => exact ih p.1 p.2

theorem seqInstrs_append {l : List Instr} {x x1 : Regs} {m m1 : Memory}
    (h : seqInstrs cfg l x m = .ok (x1, m1)) (rest : List Instr) :
    seqInstrs cfg (l ++ rest) x m = seqInstrs cfg rest x1 m1 := by
  induction l generalizing x m with
  | nil =>
    cases h
    rfl
  | cons i l ih =>
    rw [List.cons_append]
    simp only [seqInstrs] at h ⊢
    split at h
    · cases h
    · exact ih h

theorem seqInstrs_singleton (i : Instr) (x : Regs) (m : Memory) :
    seqInstrs cfg [i] x m = seqStep cfg i x m := by
  simp only [seqInstrs]
  cases seqStep cfg i x m <;> rfl

/-- noop executed by itself changes nothing (R103). -/
theorem seqStep_noop (x : Regs) (m : Memory) : seqStep cfg .noop x m = .ok (x, m) := rfl

theorem seqInstrs_work (l : List Instr) (x : Regs) (m : Memory) :
    seqInstrs cfg (work l) x m = seqInstrs cfg l x m := by
  induction l generalizing x m with
  | nil => rfl
  | cons i l ih =>
    by_cases hi : i = .noop
    · subst hi
      exact ih x m
    · have hw : work (i :: l) = i :: work l := List.filter_cons_of_pos (decide_eq_true hi)
      rw [hw]
      simp only [seqInstrs, ih]

end

theorem work_append (l l' : List Instr) : work (l ++ l') = work l ++ work l' := List.filter_append ..

/-- Lists that go on with the first `a` of each after them agree before it. -/
theorem eq_of_prefix_at_first {α : Type} {a : α} {l l' rest : List α} (hl : a ∉ l) (hl' : a ∉ l')
    (h : l ++ [a] <+: l' ++ a :: rest) : l = l' := by
  induction l generalizing l' with
  | nil =>
    cases l' with
    | nil => rfl
    | cons c l' =>
      obtain ⟨rfl, -⟩ := List.cons_prefix_cons.mp h
      exact absurd List.mem_cons_self hl'
  | cons b l ih =>
    cases l' with
    | nil =>
      obtain ⟨rfl, -⟩ := List.cons_prefix_cons.mp h
      exact absurd List.mem_cons_self hl
    | cons c l' =>
      obtain ⟨rfl, htail⟩ := List.cons_prefix_cons.mp h
      have hl2 : a ∉ l := fun hm => hl (List.mem_cons_of_mem _ hm)
      have hl2' : a ∉ l' := fun hm => hl' (List.mem_cons_of_mem _ hm)
      rw [ih hl2 hl2' htail]

/-! ## The pipeline executes the injected instructions in order -/

/-- The words fetched so far: the cycles that were no stalls (R19, R31, R32). -/
def fetches (s : State) : Nat := s.cycles - s.stalls

/-- The instructions before MW and the words not yet fetched, in program order. -/
def pending (s : State) : List Instr :=
  [s.em.instr, s.de.instr, s.fd.instr] ++ (s.program.drop (fetches s)).map (decode s.cfg)

/-- `done` is what the machine has executed from `x0` and `m0`: the instruction in MW is its last. -/
structure ExecutedInOrder (x0 : Regs) (m0 : Memory) (done : List Instr) (s : State) : Prop where
  /-- Registers (once MW is written back) and memory are those of sequential execution. -/
  result : seqInstrs s.cfg done x0 m0 = .ok (writeback s.cfg s.regs s.mw, s.dmem)
  /-- EM holds its instruction as executed on those registers. -/
  latch : s.em = currentLatch s.cfg s.em.instr (writeback s.cfg s.regs s.mw)
  /-- What was executed and what is pending begins with the program; anything behind it was injected
  after halt. -/
  order : work (s.program.map (decode s.cfg)) <+: work (done ++ pending s)

section
variable {x0 : Regs} {m0 : Memory} {done : List Instr} {s : State}

theorem fetches_cycle_of_stall (hc : Clear s) (hl : LoadUse s) (i : Instr) :
    fetches (cycle i s) = fetches s := by
  rw [fetches, cycle_cycles, cycle_stalls, if_pos ⟨hc, hl⟩, Nat.add_sub_add_right, fetches]

theorem fetches_cycle_of_advance (hinv : Inv s) (hr : s.run = .running) (hl : ¬ LoadUse s) (i : Instr) :
    fetches (cycle i s) = fetches s + 1 := by
  have hle := (inv_running_pc hinv hr).1
  rw [fetches, fetches, cycle_cycles, cycle_stalls, if_neg fun hn => hl hn.2]
  omega

/-- Before `pc` wraps, it is at the word to be fetched (R20). -/
theorem pc_eq_fetches (hinv : Inv s) (hr : s.run = .running) (h : fetches s < 2 ^ 30) :
    s.pc.toNat / 4 = fetches s := by
  rw [(inv_running_pc hinv hr).2, BitVec.toNat_ofNat]
  rw [fetches] at h ⊢
  omega

/-- While the program lasts, the injected instruction is the next pending word (R72). -/
theorem inject_of_fetches_lt (hinv : Inv s) (hr : s.run = .running)
    (hlen : s.program.length ≤ 2 ^ 30) (h : fetches s < s.program.length) :
    inject s = decode s.cfg s.program[fetches s] := by
  refine inject_of_getElem? ?_
  rw [pc_eq_fetches hinv hr (by omega), List.getElem?_eq_getElem h]

theorem pending_cycle_of_stall (hc : Clear s) (hl : LoadUse s) (i : Instr) :
    pending (cycle i s) = [s.de.instr, .noop, s.fd.instr] ++
      (s.program.drop (fetches s)).map (decode s.cfg) := by
  rw [pending, cycle_em_instr hc, cycle_de hc, if_pos hl, cycle_fd hc, if_pos hl,
    fetches_cycle_of_stall hc hl, cycle_program, cycle_cfg, DELatch_noop_instr]

theorem pending_cycle_of_advance (hinv : Inv s) (hr : s.run = .running) (hc : Clear s)
    (hl : ¬ LoadUse s) (i : Instr) :
    pending (cycle i s) = [s.de.instr, s.fd.instr, i] ++
      (s.program.drop (fetches s + 1)).map (decode s.cfg) := by
  rw [pending, cycle_em_instr hc, cycle_de hc, if_neg hl, cycle_fd hc, if_neg hl,
    fetches_cycle_of_advance hinv hr hl, cycle_program, cycle_cfg, decodeStage_instr]

/-- A clear cycle takes the instruction in EM from the pending ones; it may add one behind the
program's end, and a bubble. -/
theorem work_pending_cycle (hinv : Inv s) (hr : s.run = .running) (hc : Clear s)
    (hlen : s.program.length ≤ 2 ^ 30) :
    work (pending s) <+: work (s.em.instr :: pending (cycle (inject s) s)) := by
  by_cases hl : LoadUse s
  · have hbubble : work (s.em.instr :: pending (cycle (inject s) s)) = work (pending s) := by
      rw [pending_cycle_of_stall hc hl, pending]
      simp [work, List.filter_cons]
    rw [hbubble]
  · rw [pending_cycle_of_advance hinv hr hc hl, pending]
    refine List.IsPrefix.filter _ ?_
    by_cases hn : fetches s < s.program.length
    · rw [List.drop_eq_getElem_cons hn, List.map_cons, ← inject_of_fetches_lt hinv hr hlen hn]
      exact List.prefix_rfl
    · rw [List.drop_eq_nil_of_le (Nat.le_of_not_lt hn)]
      exact ⟨inject s :: _, rfl⟩

/-- A clear cycle executes one instruction more, in order. -/
theorem executedInOrder_cycle (h : ExecutedInOrder x0 m0 done s) (hinv : Inv s)
    (hr : s.run = .running) (hc : Clear s) (hn : ¬ NearLoadNow s) (hf : s.cfg.forwardStoreData = true)
    (hlen : s.program.length ≤ 2 ^ 30) :
    ExecutedInOrder x0 m0 (done ++ [s.em.instr]) (cycle (inject s) s) := by
  have hregs : (cycle (inject s) s).regs = writeback s.cfg s.regs s.mw := by rw [cycle_regs, if_pos hc]
  have hstage := cycle_memoryStage hc (inject s)
  rw [h.latch] at hstage
  refine ⟨?result, ?latch, ?order⟩
  case result =>
    rw [cycle_cfg, seqInstrs_append s.cfg h.result, seqInstrs_singleton,
      seqStep_of_memoryStage hstage, hregs]
  case latch =>
    have hexec := cycle_executes_current hinv.decodeReads hc hn (inject s)
    rw [cycle_cfg, cycle_em_instr hc]
    exact eq_currentLatch_of_executed hf hexec
  case order =>
    rw [cycle_program, cycle_cfg, List.append_assoc, work_append]
    refine h.order.trans ?_
    rw [work_append, List.singleton_append]
    exact (List.prefix_append_right_inj _).mpr (work_pending_cycle hinv hr hc hlen)

end

/-! ## The runs of a launch -/

/-- What every step keeps holds of every state that a run reaches. -/
theorem run_keeps {P : State → Prop} (hstep : ∀ s t, P s → step s = .next t → P t) {k : Nat}
    {s u : State} (h : P s) (hrun : Host.Core.run core k s = .next u) : P u := by
  induction k generalizing s with
  | zero =>
    cases hrun
    exact h
  | succ k ih =>
    cases hs : step s with
    | next t =>
      rw [run_step hs] at hrun
      exact ih (hstep s t h hs) hrun
    | fault r =>
      have hc : core.step s = .fault r := hs
      simp only [Host.Core.run, hc] at hrun
      cases hrun
    | refused r =>
      have hc : core.step s = .refused r := hs
      simp only [Host.Core.run, hc] at hrun
      cases hrun

/-- A machine that runs, with no halt executed yet and the program executed in order so far. -/
def RunsInOrder (cfg : Config) (program : List Word) (x0 : Regs) (m0 : Memory) (s : State) : Prop :=
  s.run = .running ∧ Inv s ∧ s.cfg = cfg ∧ s.program = program ∧
    ∃ done, .halt ∉ done ∧ ExecutedInOrder x0 m0 done s

/-- A machine that halted, the program executed in order up to its first halt. -/
def HaltedInOrder (cfg : Config) (program : List Word) (x0 : Regs) (m0 : Memory) (s : State) : Prop :=
  s.run = .halted ∧ s.mw.instr = .halt ∧ s.cfg = cfg ∧ s.program = program ∧
    ∃ done, .halt ∉ done ∧ ExecutedInOrder x0 m0 (done ++ [.halt]) s

/-- Running or halted in order, or stopped by a ModelFault. -/
def InOrder (cfg : Config) (program : List Word) (x0 : Regs) (m0 : Memory) (s : State) : Prop :=
  RunsInOrder cfg program x0 m0 s ∨ HaltedInOrder cfg program x0 m0 s ∨ ∃ r, s.run = .faulted r

section
variable {cfg : Config} {program : List Word} {x0 : Regs} {m0 : Memory}

/-- A cycle of a machine that runs in order. -/
theorem inOrder_cycle (hf : cfg.forwardStoreData = true) (hnear : cfg.nearLoadForward = .fault)
    (hlen : program.length ≤ 2 ^ 30) {s : State} (h : RunsInOrder cfg program x0 m0 s) :
    InOrder cfg program x0 m0 (cycle (inject s) s) := by
  obtain ⟨hr, hinv, rfl, rfl, done, hdone, hord⟩ := h
  by_cases hc : Clear s
  case neg =>
    obtain ⟨r, hcyc⟩ := cycle_of_not_clear hc (inject s)
    exact .inr (.inr ⟨r, by rw [hcyc, enterFaulted_run]⟩)
  have hn : ¬ NearLoadNow s := fun hn => hc.2 ⟨hn, hnear⟩
  have hord' := executedInOrder_cycle hord hinv hr hc hn hf hlen
  have hinv' := inv_cycle hinv hr (inject s)
  by_cases hh : s.em.instr = .halt
  · have hrun : (cycle (inject s) s).run = .halted := by
      rw [cycle_run_of_clear hc, if_pos ((name_eq_halt_iff _).mpr hh)]
    rw [hh] at hord'
    exact .inr (.inl ⟨hrun, hinv'.haltInMW.mp hrun, cycle_cfg _ s, cycle_program _ s, done, hdone,
      hord'⟩)
  · have hrun : (cycle (inject s) s).run = .running := by
      rw [cycle_run_of_clear hc, if_neg (mt (name_eq_halt_iff _).mp hh), hr]
    have hdone' : .halt ∉ done ++ [s.em.instr] := by simpa [hdone] using Ne.symm hh
    exact .inl ⟨hrun, hinv', cycle_cfg _ s, cycle_program _ s, _, hdone', hord'⟩

theorem inOrder_step (hf : cfg.forwardStoreData = true) (hnear : cfg.nearLoadForward = .fault)
    (hlen : program.length ≤ 2 ^ 30) {s t : State} (h : InOrder cfg program x0 m0 s)
    (hstep : step s = .next t) : InOrder cfg program x0 m0 t := by
  obtain ⟨hr, rfl⟩ | ⟨-, rfl⟩ := step_next hstep
  · obtain hruns | ⟨hh, -⟩ | ⟨r, hr'⟩ := h
    · exact inOrder_cycle hf hnear hlen hruns
    · cases hr.symm.trans hh
    · cases hr.symm.trans hr'
  · exact h

theorem inOrder_loaded (cfg : Config) (program : List Word) {data : List Word}
    (h : data.length ≤ cfg.dmemWords) :
    InOrder cfg program (State.loaded cfg program data).regs (State.loaded cfg program data).dmem
      (State.loaded cfg program data) :=
  .inl ⟨rfl, inv_loaded cfg program h, rfl, rfl, [], List.not_mem_nil, rfl, rfl, List.prefix_rfl⟩

/-- A program that ends in its only halt, executed in order up to a halt, is executed whole. -/
theorem seqRun_of_haltedInOrder {before : List Word} {last : Word} (hlast : decode cfg last = .halt)
    (hbefore : ∀ w ∈ before, decode cfg w ≠ .halt) {u : State}
    (h : HaltedInOrder cfg (before ++ [last]) x0 m0 u) :
    seqRun cfg (before ++ [last]) x0 m0 = .ok (u.regs, u.dmem) := by
  obtain ⟨-, hmw, rfl, hprog, done, hdone, hres, -, hord⟩ := h
  have hhalt : work [.halt] = [.halt] := rfl
  have hno : .halt ∉ work (before.map (decode u.cfg)) := fun hm => by
    obtain ⟨w, hw, hd⟩ := List.mem_map.mp (List.mem_of_mem_filter hm)
    exact hbefore w hw hd
  have hno' : .halt ∉ work done := fun hm => hdone (List.mem_of_mem_filter hm)
  have hwork : work (before.map (decode u.cfg)) = work done := by
    rw [hprog, List.map_append, List.map_singleton, hlast, List.append_assoc, work_append,
      work_append, work_append, hhalt] at hord
    exact eq_of_prefix_at_first hno hno' hord
  rw [writeback_of_no_destField (by rw [hmw]; rfl)] at hres
  rw [seqRun_eq_seqInstrs, List.map_append, List.map_singleton, hlast, ← seqInstrs_work, work_append,
    hwork, ← work_append, seqInstrs_work, hres]

end

/-- A launch that answers a state was admitted and answers the loaded state (R122). -/
theorem launch_next {cfg : Config} {program data : List Word} {s : State}
    (h : launch cfg program data = .next s) :
    admitted cfg program data = true ∧ s = State.loaded cfg program data := by
  by_cases hadm : admitted cfg program data = true
  · cases (launch_of_admitted hadm).symm.trans h
    exact ⟨hadm, rfl⟩
  · cases (launch_of_not_admitted hadm).symm.trans h

/-- Settles O45: every state of the run is in order (`inOrder_step`), and a halted one has executed the
whole program. -/
theorem pipelineRefinesSequentialExecution : Obligations.PipelineRefinesSequentialExecution := by
  intro cfg program data s u k hlaunch hf hnear hrun hhalted
  obtain ⟨hadm, rfl⟩ := launch_next hlaunch
  obtain ⟨before, last, rfl, hlast, hbefore, hlen, hdata⟩ := (admitted_iff cfg program data).mp hadm
  have hend := run_keeps (fun _ _ => inOrder_step hf hnear hlen) (inOrder_loaded cfg _ hdata) hrun
  obtain ⟨hr, -⟩ | hh | ⟨r, hr⟩ := hend
  · cases hhalted.symm.trans hr
  · exact seqRun_of_haltedInOrder ((name_eq_halt_iff _).mp hlast)
      (fun w hw => mt (name_eq_halt_iff _).mpr (hbefore w hw)) hh
  · cases hhalted.symm.trans hr

end Sys2Proof.Machine
end

section
/-! PROOFS of termination with the cycle count (40_pipeline section 12): where halt is, by the number of
words fetched, and how many stalls the loads still to come can cause. -/

namespace Sys2Proof.Machine

open Sys2Proof.Safety

/-! ## Counting loads -/

/-- The one stall that an instruction can cause, if it is a load (R74). -/
def stallsOf (i : Instr) : Nat := if i.name = .lw then 1 else 0

theorem loadCount_drop_of_lt (cfg : Config) {program : List Word} {n : Nat} (h : n < program.length) :
    loadCount cfg (program.drop n) =
      stallsOf (decode cfg program[n]) + loadCount cfg (program.drop (n + 1)) := by
  rw [List.drop_eq_getElem_cons h, loadCount, loadCount, List.filter_cons, stallsOf]
  by_cases hl : (decode cfg program[n]).name = .lw
  · simp [hl, Nat.add_comm]
  · simp [hl]

/-! ## The progress of a running launch -/

/-- The program ends in its only halt and has fewer than 2^30 words (R122, log 9). -/
structure EndsInHalt (cfg : Config) (program : List Word) : Prop where
  nonempty : 0 < program.length
  short : program.length < 2 ^ 30
  halt_iff : ∀ n (h : n < program.length), decode cfg program[n] = .halt ↔ n + 1 = program.length

theorem endsInHalt_of_admitted {cfg : Config} {program data : List Word}
    (h : admitted cfg program data = true) (hlen : program.length < 2 ^ 30) :
    EndsInHalt cfg program := by
  obtain ⟨before, last, rfl, hlast, hbefore, -, -⟩ := (admitted_iff cfg program data).mp h
  refine ⟨by simp, hlen, fun n hn => ?_⟩
  rw [List.length_append, List.length_singleton] at hn ⊢
  by_cases hb : n < before.length
  · rw [List.getElem_append_left hb, ← name_eq_halt_iff]
    exact iff_of_false (hbefore _ (List.getElem_mem hb)) (by omega)
  · obtain rfl : n = before.length := by omega
    simp [(name_eq_halt_iff _).mp hlast]

/-- Where halt stands, by the words fetched: in FD after `N` of them, in DE after `N + 1`, in EM after
`N + 2`; and the stalls so far with those still to come are at most the program's loads. -/
structure Progress (s : State) : Prop where
  fetched : fetches s ≤ s.program.length + 2
  fdHalt : fetches s ≤ s.program.length + 1 → (s.fd.instr = .halt ↔ fetches s = s.program.length)
  deHalt : s.de.instr = .halt ↔ fetches s = s.program.length + 1
  emHalt : s.em.instr = .halt ↔ fetches s = s.program.length + 2
  /-- Behind halt in DE comes the synthetic noop. -/
  fdNoop : fetches s = s.program.length + 1 → s.fd.instr = .noop
  deNoop : fetches s = s.program.length + 2 → s.de.instr = .noop
  stalls : s.stalls ≤ loadCount s.cfg s.program
  stallsToCome : fetches s ≤ s.program.length + 1 →
    s.stalls + stallsOf s.de.instr + stallsOf s.fd.instr +
      loadCount s.cfg (s.program.drop (fetches s)) ≤ loadCount s.cfg s.program

section
variable {s : State}

/-- Behind the program's last word the cycle driver injects the synthetic noop (R72). -/
theorem inject_of_fetches_eq (hinv : Inv s) (hr : s.run = .running)
    (hp : EndsInHalt s.cfg s.program) (h : fetches s = s.program.length) : inject s = .noop := by
  have hshort := hp.short
  refine inject_exhausted ?_
  rw [pc_eq_fetches hinv hr (by omega), h]

/-- Up to the program's end, halt is injected as the last word, and no instruction but the program's
loads can stall. -/
theorem inject_next (hinv : Inv s) (hr : s.run = .running) (hp : EndsInHalt s.cfg s.program)
    (h : fetches s ≤ s.program.length) :
    (inject s = .halt ↔ fetches s + 1 = s.program.length) ∧
      loadCount s.cfg (s.program.drop (fetches s)) =
        stallsOf (inject s) + loadCount s.cfg (s.program.drop (fetches s + 1)) := by
  have hshort := hp.short
  by_cases hn : fetches s < s.program.length
  · rw [inject_of_fetches_lt hinv hr (by omega) hn]
    exact ⟨hp.halt_iff _ hn, loadCount_drop_of_lt s.cfg hn⟩
  · rw [inject_of_fetches_eq hinv hr hp (by omega), List.drop_eq_nil_of_le (by omega),
      List.drop_eq_nil_of_le (by omega)]
    exact ⟨iff_of_false (by simp) (by omega), rfl⟩

/-- A stall uses up the load in DE, and halt stays where it is, in FD or before it. -/
theorem progress_of_stall (hc : Clear s) (hl : LoadUse s) (h : Progress s) (i : Instr) :
    Progress (cycle i s) := by
  have hlw : s.de.instr.name = .lw := hl.1
  have hdeHalt : s.de.instr ≠ .halt := fun hn => by simp [hn, Instr.name] at hlw
  have hdeNoop : s.de.instr ≠ .noop := fun hn => by simp [hn, Instr.name] at hlw
  have hle : fetches s ≤ s.program.length := by
    have hmax := h.fetched
    have hde := mt h.deHalt.mpr hdeHalt
    have hem := mt h.deNoop hdeNoop
    omega
  have hstalls := h.stallsToCome (by omega)
  have hone : stallsOf s.de.instr = 1 := if_pos hlw
  have hzero : stallsOf .noop = 0 := rfl
  have hde : (cycle i s).de.instr = .noop := by rw [cycle_de hc, if_pos hl, DELatch_noop_instr]
  have hfd : (cycle i s).fd = s.fd := by rw [cycle_fd hc, if_pos hl]
  have hst : (cycle i s).stalls = s.stalls + 1 := by rw [cycle_stalls, if_pos ⟨hc, hl⟩]
  constructor <;> simp only [fetches_cycle_of_stall hc hl, hde, hfd, cycle_em_instr hc, cycle_program,
    cycle_cfg, hst]
  case fdHalt => exact h.fdHalt
  case deHalt => exact iff_of_false (by simp) (by omega)
  case emHalt => exact iff_of_false hdeHalt (by omega)
  case fetched | fdNoop | deNoop | stalls | stallsToCome => omega

/-- A cycle that advances moves halt on by one latch, unless it is in EM. -/
theorem progress_of_advance (hinv : Inv s) (hr : s.run = .running) (hc : Clear s) (hl : ¬ LoadUse s)
    (hp : EndsInHalt s.cfg s.program) (h : Progress s) (hem : s.em.instr ≠ .halt) :
    Progress (cycle (inject s) s) := by
  have hle : fetches s ≤ s.program.length + 1 := by
    have hmax := h.fetched
    have hem' := mt h.emHalt.mpr hem
    omega
  have hstalls := h.stallsToCome hle
  have hde : (cycle (inject s) s).de.instr = s.fd.instr := by
    rw [cycle_de hc, if_neg hl, decodeStage_instr]
  have hfd : (cycle (inject s) s).fd.instr = inject s := by rw [cycle_fd hc, if_neg hl]
  have hst : (cycle (inject s) s).stalls = s.stalls := by
    rw [cycle_stalls, if_neg fun hn => hl hn.2, Nat.add_zero]
  constructor <;> simp only [fetches_cycle_of_advance hinv hr hl, hde, hfd, cycle_em_instr hc,
    cycle_program, cycle_cfg, hst]
  case fdHalt => exact fun hn => (inject_next hinv hr hp (by omega)).1
  case deHalt => rw [h.fdHalt hle, Nat.add_right_cancel_iff]
  case emHalt => rw [h.deHalt, Nat.add_right_cancel_iff]
  case fdNoop => exact fun hn => inject_of_fetches_eq hinv hr hp (by omega)
  case deNoop => exact fun hn => h.fdNoop (by omega)
  case stallsToCome =>
    intro hn
    have hnext := (inject_next hinv hr hp (by omega)).2
    omega
  case fetched | stalls => omega

/-- When halt is in EM nothing stalls, and `N + 2` words were fetched. -/
theorem progress_at_halt (hinv : Inv s) (hr : s.run = .running) (h : Progress s)
    (hem : s.em.instr = .halt) (i : Instr) :
    (cycle i s).cycles = s.program.length + 3 + (cycle i s).stalls ∧
      (cycle i s).stalls ≤ loadCount s.cfg s.program := by
  have hn := h.emHalt.mp hem
  have hl : ¬ LoadUse s := fun hl => by simp [LoadUse, h.deNoop hn, Instr.name] at hl
  have hle := (inv_running_pc hinv hr).1
  rw [cycle_cycles, cycle_stalls, if_neg fun hcl => hl hcl.2, Nat.add_zero]
  rw [fetches] at hn
  exact ⟨by omega, h.stalls⟩

end

/-! ## The run of a launch -/

/-- A machine that runs a launch. -/
structure Live (cfg : Config) (program : List Word) (s : State) : Prop where
  running : s.run = .running
  inv : Inv s
  cfg_eq : s.cfg = cfg
  program_eq : s.program = program
  progress : Progress s

/-- How a launch ends: Halted with its cycle count, or Faulted (R89, R108). -/
def Ended (cfg : Config) (program : List Word) (u : State) : Prop :=
  (u.run = .halted ∧ u.cycles = program.length + 3 + u.stalls ∧ u.stalls ≤ loadCount cfg program) ∨
    ∃ r, u.run = .faulted r

section
variable {cfg : Config} {program : List Word} {s : State}

theorem live_cycle (hp : EndsInHalt cfg program) (h : Live cfg program s) :
    Ended cfg program (cycle (inject s) s) ∨ Live cfg program (cycle (inject s) s) := by
  obtain ⟨hr, hinv, rfl, rfl, hprog⟩ := h
  by_cases hc : Clear s
  case neg =>
    obtain ⟨r, hcyc⟩ := cycle_of_not_clear hc (inject s)
    exact .inl (.inr ⟨r, by rw [hcyc, enterFaulted_run]⟩)
  by_cases hem : s.em.instr = .halt
  · have hrun : (cycle (inject s) s).run = .halted := by
      rw [cycle_run_of_clear hc, if_pos ((name_eq_halt_iff _).mpr hem)]
    exact .inl (.inl ⟨hrun, progress_at_halt hinv hr hprog hem (inject s)⟩)
  · refine .inr ⟨?_, inv_cycle hinv hr _, cycle_cfg _ s, cycle_program _ s, ?_⟩
    · rw [cycle_run_of_clear hc, if_neg (mt (name_eq_halt_iff _).mp hem), hr]
    · by_cases hl : LoadUse s
      · exact progress_of_stall hc hl hprog _
      · exact progress_of_advance hinv hr hc hl hp hprog hem

/-- A run of a launch ends, or runs for as many cycles as it is given. -/
theorem live_run (hp : EndsInHalt cfg program) (k : Nat) (h : Live cfg program s) :
    ∃ j u, Host.Core.run core j s = .next u ∧
      (Ended cfg program u ∨ (Live cfg program u ∧ u.cycles = s.cycles + k)) := by
  induction k generalizing s with
  | zero => exact ⟨0, s, rfl, .inr ⟨h, rfl⟩⟩
  | succ k ih =>
    have hstep := step_of_inject h.running rfl
    obtain hend | hlive := live_cycle hp h
    · exact ⟨1, _, by rw [run_step hstep]; rfl, .inl hend⟩
    · obtain ⟨j, u, hrun, hu⟩ := ih hlive
      refine ⟨j + 1, u, by rw [run_step hstep, hrun], hu.imp_right fun ⟨hl, hcyc⟩ => ⟨hl, ?_⟩⟩
      rw [hcyc, cycle_cycles]
      omega

/-- A launch runs for at most `N + 2` cycles and one for each load before its last cycle. -/
theorem live_cycles_le (h : Live cfg program s) :
    s.cycles ≤ program.length + 2 + loadCount cfg program := by
  obtain ⟨hr, hinv, rfl, rfl, hprog⟩ := h
  have hfetched := hprog.fetched
  have hstalls := hprog.stalls
  rw [fetches] at hfetched
  omega

end

theorem live_loaded {cfg : Config} {program data : List Word} (hp : EndsInHalt cfg program)
    (h : data.length ≤ cfg.dmemWords) : Live cfg program (State.loaded cfg program data) := by
  have hpos := hp.nonempty
  have hf : fetches (State.loaded cfg program data) = 0 := rfl
  refine ⟨rfl, inv_loaded cfg program h, rfl, rfl, ?_⟩
  constructor <;> simp only [hf, loaded_program, loaded_cfg, loaded_fd, loaded_de, loaded_em,
    loaded_stalls, FDLatch_noop_instr, DELatch_noop_instr, EMLatch_noop_instr, List.drop_zero]
  case fdHalt => exact fun _ => iff_of_false (by simp) (by omega)
  case deHalt | emHalt => exact iff_of_false (by simp) (by omega)
  case stallsToCome => simp [stallsOf, Instr.name]
  case fetched | fdNoop | deNoop | stalls => omega

/-- Settles O46: a run longer than `live_cycles_le` allows has ended. -/
theorem everyLaunchEndsWithItsCycleCount : Obligations.EveryLaunchEndsWithItsCycleCount := by
  intro cfg program data s hlaunch hlen
  obtain ⟨hadm, rfl⟩ := launch_next hlaunch
  have hp := endsInHalt_of_admitted hadm hlen
  obtain ⟨-, -, -, -, -, -, hdata⟩ := (admitted_iff cfg program data).mp hadm
  obtain ⟨k, u, hrun, hend | ⟨hlive, hcycles⟩⟩ :=
    live_run hp (program.length + 3 + loadCount cfg program) (live_loaded hp hdata)
  · exact ⟨k, u, hrun, hend⟩
  · have hle := live_cycles_le hlive
    rw [hcycles, loaded_cycles] at hle
    omega

end Sys2Proof.Machine
end
